-- ==== Sys2Proof/Word.lean ====
section
/-!
DEFINITION. The words of the engine: bytes, 32-bit register words and byte strings of fixed length
(spec/00_scope.md R6, R8).
-/

namespace Sys2Proof

/-- A byte, bit 7 the most significant (R8). -/
abbrev Byte := BitVec 8

/-- A 32-bit register word (R8, R25). -/
abbrev Word := BitVec 32

/-- A byte string of length `n`, byte 0 first (R8). -/
abbrev Bytes (n : Nat) := Vector Byte n

/-- A cipher block, BLOCK_BYTES = 16 (R6). -/
abbrev Block := Bytes 16

/-- A cipher key, KEY_BYTES = 32 (R6). -/
abbrev Key := Bytes 32

/-- An IGE initialisation vector, IV_BYTES = 32 (R6). -/
abbrev Iv := Bytes 32

end Sys2Proof
end

