-- ==== Sys2Proof/Syntax.lean ====
section
/-!
DEFINITION. The command set of the engine (spec/30_encoding.md R92): one constructor per row of
spec/opcode_table.json. No command carries an operand (R94): every operand comes from a register.
-/

namespace Sys2Proof

/-- The three commands of R92. -/
inductive Instr where
  /-- IGE_ENC, IGE encryption of LEN / 16 blocks from SRC to DST (spec/40_ige.md R112). -/
  | igeEnc
  /-- IGE_DEC, IGE decryption of LEN / 16 blocks from SRC to DST (spec/40_ige.md R113). -/
  | igeDec
  /-- CTR_APPLY, XOR of LEN bytes with the keystream (spec/41_ctr.md R143). -/
  | ctrApply
  deriving DecidableEq, Repr

end Sys2Proof
end

