-- ==== Sys2Proof/Decode.lean ====
section
/-!
DEFINITION. The command word and its decoder, total on every 32-bit value (spec/30_encoding.md R91 to
R93, R95), and after it the encoder from the same table.
-/

namespace Sys2Proof

/-- Why a command word is illegal (spec/30_encoding.md R95). Both raise ILLEGAL_CMD. -/
inductive IllegalCmd where
  /-- RSVD = [31:4] is not 0. -/
  | reservedBits
  /-- RSVD is 0 and OP is none of 0x1, 0x2, 0x3. -/
  | unknownOp
  deriving DecidableEq, Repr

/-- The field OP = [3:0] of a command word (R91). -/
def cmdOp (w : Word) : BitVec 4 := w.extractLsb' 0 4

/-- The field RSVD = [31:4] of a command word (R91). -/
def cmdRsvd (w : Word) : BitVec 28 := w.extractLsb' 4 28

/-- Decoding of a command word (R93). -/
def decode (w : Word) : Except IllegalCmd Instr :=
  if cmdRsvd w ≠ 0 then .error .reservedBits
  else if cmdOp w = 0x1 then .ok .igeEnc
  else if cmdOp w = 0x2 then .ok .igeDec
  else if cmdOp w = 0x3 then .ok .ctrApply
  else .error .unknownOp

/-- OP of each command (R92). -/
def opOf : Instr → BitVec 4
  | .igeEnc => 0x1
  | .igeDec => 0x2
  | .ctrApply => 0x3

/-- The command word of a command: RSVD = 0 above OP (R91, R92). -/
def encode (i : Instr) : Word := (0 : BitVec 28) ++ opOf i

/-- The command a table row's word decodes to: the low `nbits` bits of `w`, every bit above them 0. A
command word is 32 bits long (R90), so a longer one is none. -/
def decodeTableWord (nbits w : Nat) : Option Instr :=
  if nbits ≤ 32 then (decode (BitVec.ofNat 32 (w % 2 ^ nbits))).toOption else none

end Sys2Proof
end

