-- ==== Sys2Proof/Config.lean ====
section
/-!
DEFINITION. The parameters that spec/00_scope.md R7 and R12 leave open: the block cipher and the
platform. Both constants are bodiless, so no proof can see a value of either.
-/

namespace Sys2Proof

/-- A region of byte addresses `[lo, lo + size)` whose DMA requests the platform's memory accepts. -/
structure Region where
  lo : Nat
  size : Nat
  deriving DecidableEq, Repr, Inhabited

/-- Where a register window may begin: the 256 bytes of a window (R7, spec/10_state.md R25) lie inside
the 32-bit address space, so a base is at most 2^32 - 256.
DEDUCED from spec/20_memory.md R60 (log 5): unsafe. -/
abbrev WindowBase := Fin 4294967041

/-- The platform parameters of R7. Plain data: MemAdmit is the union of `admitted`, which can name any
set of the 2^32 addresses, and the windows are listed one per engine instance, the first of them
apart, so that N_ENGINES is at least 1. -/
structure Platform where
  /-- MemAdmit (spec/20_memory.md R81), as a list of regions. -/
  admitted : List Region
  /-- ENGINE_BASE of instance 0. -/
  base0 : WindowBase
  /-- ENGINE_BASE of instances 1, 2, ... -/
  moreBases : List WindowBase
  deriving DecidableEq, Repr, Inhabited

/-- The block cipher CIPHER = (E, D) of R12: for each key a permutation of the blocks, which is the
inverse law of R13 and nothing more. OPEN: no body (log 3). -/
opaque Config.cipher : Key → Equiv.Perm Block

/-- The platform of the machine right after reset. OPEN: no body (log 4). -/
opaque Config.platform : Platform

end Sys2Proof
end

