-- ==== Sys2Proof/Machine/State.lean ====
section
/-!
DEFINITION. The state of the machine as plain data: the engine instances of spec/10_state.md R21 and
R49, system memory (spec/20_memory.md R60) and the host program with its position
(spec/30_encoding.md R96, R99); the reasons a step can stop; the state after reset (R48, R200).
-/

namespace Sys2Proof.Machine

/-- One engine instance: the record of spec/10_state.md R21. CMD and the reserved offsets store
nothing (R36, R39), and the working values c, p and n of R40 and R41 live only inside a command. -/
structure Engine where
  /-- KEY, the write-only cipher key (R27). -/
  key : Key
  /-- IV, C_0 in its first half and P_0 in its second (R28). -/
  iv : Iv
  /-- CTR, the counter block, byte 0 the most significant (R33). -/
  ctr : Block
  /-- ECOUNT, the keystream cache (R34). -/
  ecount : Block
  /-- NUM, the offset of the next unconsumed byte of ECOUNT, 0 when the cache is exhausted (R35). -/
  num : Word
  /-- SRC, the byte address of the input buffer (R30). -/
  src : Word
  /-- DST, the byte address of the output buffer (R30). -/
  dst : Word
  /-- LEN, the byte count of both buffers (R30). -/
  len : Word
  /-- STATUS, the result of the last command (R38). -/
  status : Word
  /-- VALID, the operand valid bits (R37). -/
  valid : Word
  deriving DecidableEq, Repr

/-- The reset values of R48. -/
def Engine.reset : Engine where
  key := Vector.replicate 32 0
  iv := Vector.replicate 32 0
  ctr := Vector.replicate 16 0
  ecount := Vector.replicate 16 0
  num := 0
  src := 0
  dst := 0
  len := 0
  status := 0
  valid := 0

/-- The status codes of spec/60_exceptions.md R171. -/
inductive ErrCode where
  | ok
  | invalidLength
  | invalidKey
  | invalidState
  /-- Reserved, never produced (R171). -/
  | entropyFailure
  | range
  | overlap
  | illegalCmd
  deriving DecidableEq, Repr

/-- The registers of the window (spec/10_state.md R25), each word under its own name. -/
inductive Reg where
  | key (w : Fin 8)
  | iv (w : Fin 8)
  | ctr (w : Fin 4)
  | ecount (w : Fin 4)
  | num
  | src
  | dst
  | len
  | cmd
  | status
  | valid
  /-- The reserved offset 0x07C + 4 k (R39). -/
  | reserved (k : Fin 33)
  deriving DecidableEq, Repr

/-- The width of a register access; only `word` is accepted (R46). -/
inductive AccessWidth where
  | byte
  | half
  | word
  /-- Wider than 32 bits. -/
  | wide
  deriving DecidableEq, Repr

/-- What an agent other than the host and the engine does while commands run
(spec/20_memory.md R76, spec/70_reset_and_hazards.md R200). -/
inductive AgentEvent where
  /-- It reads the byte at `a`. -/
  | read (a : Word)
  /-- It writes `v` to the byte at `a`. -/
  | write (a : Word) (v : Byte)
  /-- The platform's reset input is asserted. -/
  | reset
  deriving DecidableEq, Repr

/-- One action at the machine's interface. Several masters' accesses are served in arrival order
(spec/60_exceptions.md R192), which is the order of the list they stand in (log 15). -/
inductive HostAction where
  /-- `wr`: a write of `v` at window offset `off` of instance `e` (spec/30_encoding.md R96); a 32-bit
  one at the offset of CMD runs the command `v`. -/
  | regWrite (e : Nat) (width : AccessWidth) (off : BitVec 8) (v : Word)
  /-- `rd`: a read at window offset `off` of instance `e`. -/
  | regRead (e : Nat) (width : AccessWidth) (off : BitVec 8)
  /-- `st`: the byte string goes to system memory, byte k to `a + k`. -/
  | store (a : Word) (bytes : List Byte)
  /-- `ld`: `n` bytes of system memory are read from `a`. -/
  | load (a : Word) (n : Nat)
  /-- CMD writes `(instance, value)` that run at the same time (spec/20_memory.md R80), while other
  agents do what `others` says (R76). -/
  | overlapped (cmds : List (Nat × Word)) (others : List AgentEvent)
  /-- The platform's reset input, between steps (spec/70_reset_and_hazards.md R200). -/
  | reset
  deriving DecidableEq, Repr

/-- What a read binds: a register word (`rd`) or a byte string (`ld`) (spec/30_encoding.md R96). -/
inductive Observation where
  | word (v : Word)
  | bytes (bs : List Byte)
  deriving DecidableEq, Repr

/-- System memory (spec/20_memory.md R60): the bytes that differ from `Memory.unlisted`, by rising
address. -/
abbrev Memory := List Host.Cell

/-- What an unlisted address reads as. The spec gives no power-on contents of system memory.
DESIGN CHOICE (log 2): unsafe. -/
def Memory.unlisted : Byte := 0

/-- The canonical form, for cells at addresses from `lo` on: addresses rise strictly and stay below
2^32, and no cell holds what an unlisted address reads as. -/
def Memory.wfFrom : Nat → Memory → Bool
  | _, [] => true
  | lo, (a, v) :: r =>
    decide (lo ≤ a) && decide (a < 4294967296) && decide (v ≠ Memory.unlisted) && Memory.wfFrom (a + 1) r

/-- The canonical form of a memory. -/
def Memory.wf (m : Memory) : Bool := Memory.wfFrom 0 m

/-- The machine: the engine instances, system memory and the host's side. -/
structure State where
  /-- The engine instances of the platform, N_ENGINES of them (spec/10_state.md R49). -/
  engines : List Engine
  /-- System memory (spec/20_memory.md R60). -/
  mem : Memory
  /-- The host program still to run: the host's actions in program order (spec/30_encoding.md R96). -/
  pending : List HostAction
  /-- The index of the host program's next action (R99). -/
  pos : Nat
  /-- What the host's reads have bound so far, oldest first (R96). -/
  observed : List Observation
  /-- The model's own: the instance whose CMD register is being written (log 16). -/
  target : Nat
  /-- The platform parameters, constant data that no step changes (log 4). -/
  platform : Platform
  deriving DecidableEq, Repr

/-- Why the machine stops. Every one of these is safe: the model stops where the hardware may go on. -/
inductive Fault where
  /-- A register access to instance `e` of the wrong width or at an offset that is not a multiple of 4
  (R46, spec/93_implementation_defined.md U4). Raised by a host register access. Safe (log 7). -/
  | busError (e : Nat) (off : BitVec 8)
  /-- A command of instance `e` passed its checks and a buffer holds an address that the platform does
  not admit or that lies in a register window (spec/20_memory.md R81). Raised by the three
  commands. Safe (log 11). -/
  | dmaStuck (e : Nat)
  /-- A register access or command of an instance the platform does not have. Safe (log 10). -/
  | noSuchEngine (e : Nat)
  /-- A host load or store of `n` bytes at `a` runs past address 2^32 - 1. Safe (log 9). -/
  | pastAddressSpace (a n : Nat)
  /-- A host load or store, or another agent's write, of a byte inside a register window: a byte access
  to the window, which R46 answers with a bus error. Safe (log 8). -/
  | windowByteAccess
  deriving DecidableEq, Repr

/-- Why the machine gives no meaning to what it is asked. -/
inductive Refusal where
  /-- An instruction that the model does not give a meaning. Raised by no arm of this model. Safe. -/
  | notModelled (mnemonic : String)
  /-- Another agent, or a command of another instance, touches a buffer during a command
  (spec/20_memory.md R76, R80). Raised by overlapped commands. Safe (log 12). -/
  | race
  /-- Reset is asserted inside a command (spec/70_reset_and_hazards.md R200,
  spec/93_implementation_defined.md U6). Raised by overlapped commands. Safe (log 13). -/
  | resetDuringCommand
  deriving DecidableEq, Repr

end Sys2Proof.Machine

namespace Sys2Proof

/-- ENGINE_BASE of every instance, in order; their number is N_ENGINES (spec/00_scope.md R7). -/
def Platform.bases (p : Platform) : List WindowBase := p.base0 :: p.moreBases

namespace Machine

/-- The machine right after power-on, of a given platform: every instance as R48 says, memory with
nothing listed, and no host program yet (log 1). -/
def State.resetOn (p : Platform) : State where
  engines := p.bases.map fun _ => Engine.reset
  mem := []
  pending := []
  pos := 0
  observed := []
  target := 0
  platform := p

/-- The machine right after reset (spec/10_state.md R48, spec/70_reset_and_hazards.md R200, R202). -/
def State.reset : State := State.resetOn Config.platform

end Machine

end Sys2Proof
end

