-- ==== Sys2Proof/Machine/Operands.lean ====
section
/-!
DEFINITION. Every operand form: byte strings and their XOR (spec/00_scope.md R9), the big-endian counter
(R10, spec/41_ctr.md R141), the halves of IV (spec/40_ige.md R110), the packing of register words
(spec/10_state.md R26), and the register window's offsets (R25).
-/

namespace Sys2Proof.Machine

/-- Byte `i` of a byte string (0 past its end, where no rule reads). -/
def byteAt {n : Nat} (b : Bytes n) (i : Nat) : Byte := if h : i < n then b[i] else 0

/-- `a XOR b`, byte by byte (spec/00_scope.md R9). -/
def xorBytes {n : Nat} (a b : Bytes n) : Bytes n := Vector.ofFn fun i => a[i] ^^^ b[i]

/-- BE of a list of bytes: the first is the most significant (R10). -/
def beList : List Byte → Nat
  | [] => 0
  | b :: r => b.toNat * 256 ^ r.length + beList r

/-- BE of a byte string (R10). -/
def beNat {n : Nat} (b : Bytes n) : Nat := beList b.toList

/-- BEbytes_n of a number: the byte string whose BE is `v mod 256^n` (R10). -/
def beBytes (n : Nat) (v : Nat) : Bytes n := Vector.ofFn fun i => BitVec.ofNat 8 (v / 256 ^ (n - 1 - i.val))

/-- INC128 (spec/41_ctr.md R141). -/
def inc128 (b : Block) : Block := beBytes 16 ((beNat b + 1) % 2 ^ 128)

/-- IV[0..15], the ciphertext-chain seed C_0 (spec/40_ige.md R110). -/
def cipherSeed (iv : Iv) : Block := Vector.ofFn fun i => byteAt iv i.val

/-- IV[16..31], the plaintext-chain seed P_0 (R110). -/
def plainSeed (iv : Iv) : Block := Vector.ofFn fun i => byteAt iv (16 + i.val)

/-- Bits [8j+7:8j] of a register word (spec/10_state.md R26). -/
def laneOf (v : Word) (j : Nat) : Byte := v.extractLsb' (8 * j) 8

/-- Word `w` of a byte register: byte 4w in bits [7:0], byte 4w+3 in bits [31:24] (R26). -/
def getWord {n : Nat} (r : Bytes n) (w : Nat) : Word :=
  byteAt r (4 * w + 3) ++ byteAt r (4 * w + 2) ++ byteAt r (4 * w + 1) ++ byteAt r (4 * w)

/-- A byte register with its word `w` written (R43). -/
def setWord {n : Nat} (r : Bytes n) (w : Nat) (v : Word) : Bytes n :=
  Vector.ofFn fun i => if i.val / 4 = w then laneOf v (i.val % 4) else r[i]

/-- The register at a window offset, none where the offset is not a multiple of 4 (R25, R46). -/
def regAt (off : BitVec 8) : Option Reg :=
  let o := off.toNat
  let w := o / 4
  if o % 4 ≠ 0 then none
  else if w < 8 then some (.key (Fin.ofNat 8 w))
  else if w < 16 then some (.iv (Fin.ofNat 8 (w - 8)))
  else if w < 20 then some (.ctr (Fin.ofNat 4 (w - 16)))
  else if w < 24 then some (.ecount (Fin.ofNat 4 (w - 20)))
  else if w = 24 then some .num
  else if w = 25 then some .src
  else if w = 26 then some .dst
  else if w = 27 then some .len
  else if w = 28 then some .cmd
  else if w = 29 then some .status
  else if w = 30 then some .valid
  else some (.reserved (Fin.ofNat 33 (w - 31)))

/-- The window offset of a register (R25). -/
def offsetOf : Reg → BitVec 8
  | .key w => BitVec.ofNat 8 (4 * w.val)
  | .iv w => BitVec.ofNat 8 (0x20 + 4 * w.val)
  | .ctr w => BitVec.ofNat 8 (0x40 + 4 * w.val)
  | .ecount w => BitVec.ofNat 8 (0x50 + 4 * w.val)
  | .num => 0x60
  | .src => 0x64
  | .dst => 0x68
  | .len => 0x6C
  | .cmd => 0x70
  | .status => 0x74
  | .valid => 0x78
  | .reserved k => BitVec.ofNat 8 (0x7C + 4 * k.val)

end Sys2Proof.Machine
end

