-- ==== Sys2Proof/Machine/Flags.lean ====
section
/-!
DEFINITION. The flags of the engine, which are STATUS.ERR and the VALID bits and no others
(spec/10_state.md R42): their fields (R37, R38), and the checks of a command that read and write them
(spec/60_exceptions.md R171, R173).
-/

namespace Sys2Proof.Machine

/-- The number of a status code (spec/60_exceptions.md R171). -/
def errNumber : ErrCode → BitVec 4
  | .ok => 0
  | .invalidLength => 1
  | .invalidKey => 2
  | .invalidState => 3
  | .entropyFailure => 4
  | .range => 5
  | .overlap => 6
  | .illegalCmd => 7

/-- STATUS with ERR holding a code: the reserved bits [31:4] read 0 (spec/10_state.md R38, log 14). -/
def statusOf (c : ErrCode) : Word := (0 : BitVec 28) ++ errNumber c

/-- STATUS.ERR <- code (R38). -/
def setErr (e : Engine) (c : ErrCode) : Engine := { e with status := statusOf c }

/-- VALID.KEYV (R37). -/
def keyV (v : Word) : BitVec 8 := v.extractLsb' 0 8

/-- VALID.IVV (R37). -/
def ivV (v : Word) : BitVec 8 := v.extractLsb' 8 8

/-- VALID.CTRV (R37). -/
def ctrV (v : Word) : BitVec 4 := v.extractLsb' 16 4

/-- VALID.ECV (R37). -/
def ecV (v : Word) : BitVec 4 := v.extractLsb' 20 4

/-- VALID with bit `k` set (R43). -/
def setValidBit (v : Word) (k : Nat) : Word := v ||| BitVec.ofNat 32 (2 ^ k)

/-- VALID with all four bits of ECV set: a regeneration (R37, spec/41_ctr.md R142). -/
def setEcV (v : Word) : Word := v ||| 0x00F00000

/-- InRange (spec/20_memory.md R65), on unbounded integers. -/
def inRange (a l : Nat) : Bool := decide (a + l ≤ 4294967296)

/-- Overlap (R66). -/
def overlaps (s d l : Nat) : Bool := decide (0 < l) && decide (s ≠ d) && decide (s < d + l) && decide (d < s + l)

/-- The operand checks of IGE_ENC and IGE_DEC (spec/60_exceptions.md R173, R177). -/
def igeOperandCheck (e : Engine) : ErrCode :=
  if ivV e.valid ≠ 0xFF then .invalidLength
  else if e.len.toNat = 0 ∨ e.len.toNat % 16 ≠ 0 then .invalidLength
  else .ok

/-- The operand checks of CTR_APPLY (R173, R179). -/
def ctrOperandCheck (e : Engine) : ErrCode :=
  if 16 ≤ e.num.toNat then .invalidState
  else if ctrV e.valid ≠ 0xF then .invalidState
  else if e.num.toNat ≠ 0 ∧ ecV e.valid ≠ 0xF then .invalidState
  else .ok

/-- The operand checks of a command, its own part of R173. -/
def operandCheck : Instr → Engine → ErrCode
  | .igeEnc, e => igeOperandCheck e
  | .igeDec, e => igeOperandCheck e
  | .ctrApply, e => ctrOperandCheck e

/-- The buffer checks of every command (R173, R180, R181). -/
def bufferCheck (e : Engine) : ErrCode :=
  if 0 < e.len.toNat ∧ ¬ (inRange e.src.toNat e.len.toNat ∧ inRange e.dst.toNat e.len.toNat) then .range
  else if overlaps e.src.toNat e.dst.toNat e.len.toNat then .overlap
  else .ok

/-- Check of a legal command word (R173): the first failing check's code, or `ok`. The check for an
illegal word comes before it, in the decoder (spec/30_encoding.md R93). -/
def check (i : Instr) (e : Engine) : ErrCode :=
  if keyV e.valid ≠ 0xFF then .invalidKey
  else if operandCheck i e ≠ .ok then operandCheck i e
  else bufferCheck e

end Sys2Proof.Machine
end

