-- ==== Sys2Proof/Machine/Ops.lean ====
section
/-!
DEFINITION. The named operations over memory and registers: one byte of memory and byte strings of it
(spec/20_memory.md R61), DMA admission (R81), the register window (spec/10_state.md R43, R44), raising
an error (spec/60_exceptions.md R174, which is all the engine has in place of taking an exception, R186)
and running a command whose checks pass (R173, R175).
-/

namespace Sys2Proof.Machine

/-! Memory -/

/-- The byte at an address. -/
def readByte : Memory → Nat → Byte
  | [], _ => Memory.unlisted
  | (b, u) :: r, a => if a = b then u else readByte r a

/-- A byte written at an address, in the canonical form. -/
def writeByte : Memory → Nat → Byte → Memory
  | [], a, v => if v = Memory.unlisted then [] else [(a, v)]
  | (b, u) :: r, a, v =>
    if a < b then (if v = Memory.unlisted then (b, u) :: r else (a, v) :: (b, u) :: r)
    else if a = b then (if v = Memory.unlisted then r else (a, v) :: r)
    else (b, u) :: writeByte r a v

/-- MemRead as a list of bytes (spec/20_memory.md R61). -/
def readList (m : Memory) (a n : Nat) : List Byte := (List.range n).map fun i => readByte m (a + i)

/-- MemRead of one block (R61). -/
def readBlock (m : Memory) (a : Nat) : Block := Vector.ofFn fun i => readByte m (a + i.val)

/-- MemWrite: the bytes in increasing address order (R61). -/
def writeList : Memory → Nat → List Byte → Memory
  | m, _, [] => m
  | m, a, v :: r => writeList (writeByte m a v) (a + 1) r

/-- MemWrite of one block (R61). -/
def writeBlock (m : Memory) (a : Nat) (b : Block) : Memory := writeList m a b.toList

/-! The platform -/

/-- MemAdmit (spec/20_memory.md R81): an admitted region holds the address. -/
def memAdmit (p : Platform) (a : Nat) : Bool :=
  p.admitted.any fun r => decide (r.lo ≤ a) && decide (a < r.lo + r.size)

/-- The address lies inside some instance's register window of 256 bytes (R60, R81). -/
def inWindow (p : Platform) (a : Nat) : Bool :=
  p.bases.any fun b => decide (b.val ≤ a) && decide (a < b.val + 256)

/-- A DMA request for the byte at the address is served (R81). -/
def dmaServed (p : Platform) (a : Nat) : Bool := memAdmit p a && !inWindow p a

/-- Every address of `[a, a + l)` satisfies `f`. -/
def rangeAll (f : Nat → Bool) (a l : Nat) : Bool := (List.range l).all fun i => f (a + i)

/-- Every DMA request of a command is served: both buffers (R81). -/
def buffersServed (p : Platform) (e : Engine) : Bool :=
  rangeAll (dmaServed p) e.src.toNat e.len.toNat && rangeAll (dmaServed p) e.dst.toNat e.len.toNat

/-! Registers -/

/-- The word a register reads as (spec/10_state.md R44): KEY, CMD and the reserved offsets read 0. -/
def readReg (e : Engine) : Reg → Word
  | .key _ => 0
  | .iv w => getWord e.iv w.val
  | .ctr w => getWord e.ctr w.val
  | .ecount w => getWord e.ecount w.val
  | .num => e.num
  | .src => e.src
  | .dst => e.dst
  | .len => e.len
  | .cmd => 0
  | .status => e.status
  | .valid => e.valid
  | .reserved _ => 0

/-- A register written (R43), CMD apart, which stores nothing (R36): STATUS, VALID and the reserved
offsets ignore the write (R39). -/
def writeReg (e : Engine) (v : Word) : Reg → Engine
  | .key w => { e with key := setWord e.key w.val v, valid := setValidBit e.valid w.val }
  | .iv w => { e with iv := setWord e.iv w.val v, valid := setValidBit e.valid (8 + w.val) }
  | .ctr w => { e with ctr := setWord e.ctr w.val v, valid := setValidBit e.valid (16 + w.val) }
  | .ecount w => { e with ecount := setWord e.ecount w.val v, valid := setValidBit e.valid (20 + w.val) }
  | .num => { e with num := v }
  | .src => { e with src := v }
  | .dst => { e with dst := v }
  | .len => { e with len := v }
  | .cmd => e
  | .status => e
  | .valid => e
  | .reserved _ => e

/-- The state with instance `k` replaced. -/
def setEngine (s : State) (k : Nat) (e : Engine) : State := { s with engines := s.engines.set k e }

/-- The state with system memory replaced. -/
def setMem (s : State) (m : Memory) : State := { s with mem := m }

/-- The state with a CMD write addressed to instance `k` (log 16). -/
def selectEngine (s : State) (k : Nat) : State := { s with target := k }

/-- The state with one more value bound by a host read (spec/30_encoding.md R96). -/
def observe (s : State) (o : Observation) : State := { s with observed := s.observed ++ [o] }

/-- The state with the host program's next action taken: its position moves on (R99). -/
def advance (s : State) (rest : List HostAction) : State := { s with pending := rest, pos := s.pos + 1 }

/-! Errors and commands -/

/-- `raise Err(code)` on instance `k`, which holds `e`: STATUS.ERR is the one effect
(spec/60_exceptions.md R174, R186). There is no return from it (R187). -/
def raiseErr (s : State) (k : Nat) (e : Engine) (c : ErrCode) : State := setEngine s k (setErr e c)

/-- A command on the addressed instance: the checks of R173, then, if the platform serves both buffers
(spec/20_memory.md R81), the whole operation `op` in one step (spec/10_state.md R22), and STATUS.ERR
is 0 (R175). -/
def runCommand (i : Instr) (op : Engine → Memory → Engine × Memory) (s : State) :
    Host.Outcome State Fault Refusal :=
  match s.engines[s.target]? with
  | none => .fault (.noSuchEngine s.target)
  | some e =>
    if check i e ≠ .ok then .next (raiseErr s s.target e (check i e))
    else if buffersServed s.platform e then
      .next (setMem (setEngine s s.target (setErr (op e s.mem).1 .ok)) (op e s.mem).2)
    else .fault (.dmaStuck s.target)

end Sys2Proof.Machine
end

