-- ==== Sys2Proof/Machine/Ctr.lean ====
section
/-!
DEFINITION. CTR_APPLY (spec/41_ctr.md R142, R143).
-/

namespace Sys2Proof.Machine

/-- Regenerate(K) (R142): the keystream block is that of the counter before its increment. -/
def regenerate (enc : Block → Block) (e : Engine) : Engine :=
  { e with ecount := enc e.ctr, valid := setEcV e.valid, ctr := inc128 e.ctr }

/-- The cache made ready for a byte at working offset `n`: regenerated if the offset is 0 (R143). -/
def refill (enc : Block → Block) (n : Nat) (e : Engine) : Engine := if n = 0 then regenerate enc e else e

/-- The loop of CTR_APPLY over the bytes still to do, at the addresses of the next input and output byte,
with the working offset `n` (R143, spec/10_state.md R41). -/
def ctrLoop (enc : Block → Block) : Nat → Nat → Nat → Nat → Engine → Memory → Nat × Engine × Memory
  | 0, _, _, n, e, m => (n, e, m)
  | k + 1, src, dst, n, e, m =>
    let e' := refill enc n e
    ctrLoop enc k (src + 1) (dst + 1) ((n + 1) % 16) e'
      (writeByte m dst (readByte m src ^^^ byteAt e'.ecount n))

/-- NUM <- n, zero-extended (R143). -/
def setNum (e : Engine) (n : Nat) : Engine := { e with num := BitVec.ofNat 32 n }

/-- The operation of CTR_APPLY after its checks (R143). -/
def ctrApplyOp (cipher : Key → Equiv.Perm Block) (e : Engine) (m : Memory) : Engine × Memory :=
  let r := ctrLoop (cipher e.key) e.len.toNat e.src.toNat e.dst.toNat e.num.toNat e m
  (setNum r.2.1 r.1, r.2.2)

/-- CTR_APPLY under a given cipher. -/
def runCtrApply (cipher : Key → Equiv.Perm Block) (s : State) : Host.Outcome State Fault Refusal :=
  runCommand .ctrApply (ctrApplyOp cipher) s

/-- CTR_APPLY on the addressed instance (R143). -/
def execCtrApply (s : State) : Host.Outcome State Fault Refusal := runCtrApply Config.cipher s

end Sys2Proof.Machine
end

