-- ==== Sys2Proof/Machine/Ige.lean ====
section
/-!
DEFINITION. IGE_ENC and IGE_DEC (spec/40_ige.md R112, R113).
-/

namespace Sys2Proof.Machine

/-- The loop of IGE_ENC over the blocks still to do, at the addresses of the next input and output block;
`c` and `p` hold C_{i-1} and P_{i-1} (R112, R114, spec/10_state.md R40). -/
def igeEncLoop (enc : Block → Block) : Nat → Nat → Nat → Block → Block → Memory → Memory
  | 0, _, _, _, _, m => m
  | n + 1, src, dst, c, p, m =>
    let x := readBlock m src
    let y := xorBytes (enc (xorBytes x c)) p
    igeEncLoop enc n (src + 16) (dst + 16) y x (writeBlock m dst y)

/-- The loop of IGE_DEC (R113, R114). -/
def igeDecLoop (dec : Block → Block) : Nat → Nat → Nat → Block → Block → Memory → Memory
  | 0, _, _, _, _, m => m
  | n + 1, src, dst, c, p, m =>
    let y := readBlock m src
    let x := xorBytes (dec (xorBytes y p)) c
    igeDecLoop dec n (src + 16) (dst + 16) y x (writeBlock m dst x)

/-- The operation of IGE_ENC after its checks (R112): no register is written. -/
def igeEncOp (cipher : Key → Equiv.Perm Block) (e : Engine) (m : Memory) : Engine × Memory :=
  (e, igeEncLoop (cipher e.key) (e.len.toNat / 16) e.src.toNat e.dst.toNat (cipherSeed e.iv) (plainSeed e.iv) m)

/-- The operation of IGE_DEC after its checks (R113): no register is written. -/
def igeDecOp (cipher : Key → Equiv.Perm Block) (e : Engine) (m : Memory) : Engine × Memory :=
  (e, igeDecLoop (cipher e.key).symm (e.len.toNat / 16) e.src.toNat e.dst.toNat (cipherSeed e.iv) (plainSeed e.iv) m)

/-- IGE_ENC under a given cipher. -/
def runIgeEnc (cipher : Key → Equiv.Perm Block) (s : State) : Host.Outcome State Fault Refusal :=
  runCommand .igeEnc (igeEncOp cipher) s

/-- IGE_DEC under a given cipher. -/
def runIgeDec (cipher : Key → Equiv.Perm Block) (s : State) : Host.Outcome State Fault Refusal :=
  runCommand .igeDec (igeDecOp cipher) s

/-- IGE_ENC on the addressed instance (R112). -/
def execIgeEnc (s : State) : Host.Outcome State Fault Refusal := runIgeEnc Config.cipher s

/-- IGE_DEC on the addressed instance (R113). -/
def execIgeDec (s : State) : Host.Outcome State Fault Refusal := runIgeDec Config.cipher s

end Sys2Proof.Machine
end

