-- ==== Sys2Proof/Machine/Dispatch.lean ====
section
/-!
DEFINITION. The dispatch: one arm per constructor of Instr.
-/

namespace Sys2Proof.Machine

def exec (i : Instr) (s : State) : Host.Outcome State Fault Refusal :=
  match i with
  | .igeEnc => Sys2Proof.Machine.execIgeEnc s
  | .igeDec => Sys2Proof.Machine.execIgeDec s
  | .ctrApply => Sys2Proof.Machine.execCtrApply s

end Sys2Proof.Machine
end

