-- ==== Sys2Proof/Machine/HostPort.lean ====
section
/-!
DEFINITION. What the host can do to the machine (spec/30_encoding.md R96): register accesses, of which a
write to CMD runs a command (spec/10_state.md R36, R43), loads and stores of system memory, reset
(spec/70_reset_and_hazards.md R200), and commands that run at the same time on several instances or
beside other agents (spec/20_memory.md R76, R80).
-/

namespace Sys2Proof.Machine

/-- A CMD write of `v` on instance `k` (spec/30_encoding.md R93): the decoded command runs, an illegal
word raises ILLEGAL_CMD. -/
def cmdWrite (k : Nat) (v : Word) (s : State) : Host.Outcome State Fault Refusal :=
  match s.engines[k]? with
  | none => .fault (.noSuchEngine k)
  | some e =>
    match decode v with
    | .ok i => exec i (selectEngine s k)
    | .error _ => .next (raiseErr (selectEngine s k) k e .illegalCmd)

/-- The register a host access addresses, or the fault the access gets (spec/10_state.md R46). -/
def access (s : State) (k : Nat) (width : AccessWidth) (off : BitVec 8) : Except Fault (Engine × Reg) :=
  match s.engines[k]? with
  | none => .error (.noSuchEngine k)
  | some e =>
    if width ≠ .word then .error (.busError k off)
    else match regAt off with
      | none => .error (.busError k off)
      | some r => .ok (e, r)

/-- A host register write (R43). -/
def regWrite (k : Nat) (width : AccessWidth) (off : BitVec 8) (v : Word) (s : State) :
    Host.Outcome State Fault Refusal :=
  match access s k width off with
  | .error f => .fault f
  | .ok (e, r) => if r = .cmd then cmdWrite k v s else .next (setEngine s k (writeReg e v r))

/-- A host register read (R44): the value is bound, nothing else changes (R45). -/
def regRead (k : Nat) (width : AccessWidth) (off : BitVec 8) (s : State) :
    Host.Outcome State Fault Refusal :=
  match access s k width off with
  | .error f => .fault f
  | .ok (e, r) => .next (observe s (.word (readReg e r)))

/-- Whether a host access of `n` bytes of system memory at `a` gets through: inside the address space and
outside every register window (spec/20_memory.md R60, logs 8 and 9). -/
def memoryAccess (p : Platform) (a n : Nat) : Except Fault Unit :=
  if 4294967296 < a + n then .error (.pastAddressSpace a n)
  else if rangeAll (fun b => !inWindow p b) a n then .ok ()
  else .error .windowByteAccess

/-- `st` (spec/30_encoding.md R96). -/
def hostStore (a : Nat) (bytes : List Byte) (s : State) : Host.Outcome State Fault Refusal :=
  match memoryAccess s.platform a bytes.length with
  | .error f => .fault f
  | .ok _ => .next (setMem s (writeList s.mem a bytes))

/-- `ld` (R96). -/
def hostLoad (a n : Nat) (s : State) : Host.Outcome State Fault Refusal :=
  match memoryAccess s.platform a n with
  | .error f => .fault f
  | .ok _ => .next (observe s (.bytes (readList s.mem a n)))

/-- Reset: every instance takes the values of spec/10_state.md R48; system memory and the host's side are
not touched (spec/70_reset_and_hazards.md R200, spec/60_exceptions.md R191). -/
def resetEngines (s : State) : State := { s with engines := s.engines.map fun _ => Engine.reset }

/-! Commands at the same time -/

/-- The buffers of a command that passes its checks, none for a CMD write that makes no DMA request
(spec/60_exceptions.md R174). -/
structure Footprint where
  engine : Nat
  src : Nat
  dst : Nat
  len : Nat
  deriving DecidableEq, Repr

/-- The footprint of a CMD write. -/
def footprint (s : State) (c : Nat × Word) : Option Footprint :=
  match s.engines[c.1]?, decode c.2 with
  | some e, .ok i => if check i e = .ok then some ⟨c.1, e.src.toNat, e.dst.toNat, e.len.toNat⟩ else none
  | _, _ => none

/-- The ranges `[a, a + l)` and `[b, b + k)` share a byte. -/
def rangesMeet (a l b k : Nat) : Bool := decide (0 < l) && decide (0 < k) && decide (a < b + k) && decide (b < a + l)

/-- A byte written by one command is read or written by the other (spec/20_memory.md R80). Commands of one
instance are served one after the other (spec/60_exceptions.md R192). -/
def footprintsRace (f g : Footprint) : Bool :=
  decide (f.engine ≠ g.engine) &&
    (rangesMeet f.dst f.len g.dst g.len || rangesMeet f.dst f.len g.src g.len || rangesMeet f.src f.len g.dst g.len)

/-- Another agent writes a byte of a buffer, or reads a byte of the output buffer (R76). -/
def agentRaces (f : Footprint) : AgentEvent → Bool
  | .read a => rangesMeet a.toNat 1 f.dst f.len
  | .write a _ => rangesMeet a.toNat 1 f.src f.len || rangesMeet a.toNat 1 f.dst f.len
  | .reset => false

/-- Some two of the footprints race. -/
def anyRace : List Footprint → Bool
  | [] => false
  | f :: r => r.any (footprintsRace f) || anyRace r

/-- The run is a race (R76, R80). -/
def races (s : State) (cmds : List (Nat × Word)) (others : List AgentEvent) : Bool :=
  let fs := cmds.filterMap (footprint s)
  anyRace fs || fs.any fun f => others.any (agentRaces f)

/-- The other agents' writes, in order; a write into a register window is a bus error (log 8). -/
def agentWrites : List AgentEvent → State → Host.Outcome State Fault Refusal
  | [], s => .next s
  | .write a v :: r, s =>
    match hostStore a.toNat [v] s with
    | .next t => agentWrites r t
    | .fault f => .fault f
    | .refused q => .refused q
  | .read _ :: r, s => agentWrites r s
  | .reset :: r, s => agentWrites r s

/-- CMD writes one after the other. -/
def cmdWrites : List (Nat × Word) → State → Host.Outcome State Fault Refusal
  | [], s => .next s
  | c :: r, s =>
    match cmdWrite c.1 c.2 s with
    | .next t => cmdWrites r t
    | .fault f => .fault f
    | .refused q => .refused q

/-- CMD writes that run at the same time while other agents act: a reset inside a command and a race have
no meaning (R76, R80, spec/70_reset_and_hazards.md R200); otherwise no byte is shared, and the outcome
is that of the accesses one after the other (log 12). -/
def overlapped (cmds : List (Nat × Word)) (others : List AgentEvent) (s : State) :
    Host.Outcome State Fault Refusal :=
  if others.any (fun o => decide (o = .reset)) then .refused .resetDuringCommand
  else if races s cmds others then .refused .race
  else match agentWrites others s with
    | .next t => cmdWrites cmds t
    | .fault f => .fault f
    | .refused q => .refused q

/-- One host action. -/
def perform (a : HostAction) (s : State) : Host.Outcome State Fault Refusal :=
  match a with
  | .regWrite k width off v => regWrite k width off v s
  | .regRead k width off => regRead k width off s
  | .store b bytes => hostStore b.toNat bytes s
  | .load b n => hostLoad b.toNat n s
  | .overlapped cmds others => overlapped cmds others s
  | .reset => .next (resetEngines s)

/-- The next action of the host program (spec/30_encoding.md R99), each in program order
(spec/20_memory.md R73). With none left the run has ended and the engine is idle, keeping every register
(spec/60_exceptions.md R194, log 1). -/
def hostStep (s : State) : Host.Outcome State Fault Refusal :=
  match s.pending with
  | [] => .next s
  | a :: rest => perform a (advance s rest)

/-- The host action that writes a command word to CMD of instance 0. -/
def cmdAction (v : Word) : HostAction := .regWrite 0 .word (offsetOf .cmd) v

end Sys2Proof.Machine
end

