-- ==== Sys2Proof/Safety.lean ====
section
/-!
DEFINITION. What the claims speak of: a command ready to run, the transformations of spec/40_ige.md and
spec/41_ctr.md as functions on byte strings, and what a legal state is.
-/

namespace Sys2Proof.Machine

/-! A command that runs -/

/-- The addressed instance holds `e`, every check of the command passes (spec/60_exceptions.md R173) and
the platform serves its buffers (spec/20_memory.md R81). -/
abbrev Ready (i : Instr) (s : State) (e : Engine) : Prop :=
  s.engines[s.target]? = some e ∧ check i e = .ok ∧ buffersServed s.platform e = true

/-- The preconditions of IGE_ENC and IGE_DEC as spec/40_ige.md R111 lists them. -/
abbrev IgePreconditions (e : Engine) : Prop :=
  keyV e.valid = 0xFF ∧ ivV e.valid = 0xFF ∧ e.len.toNat ≠ 0 ∧ e.len.toNat % 16 = 0 ∧
    e.src.toNat + e.len.toNat ≤ 2 ^ 32 ∧ e.dst.toNat + e.len.toNat ≤ 2 ^ 32 ∧
    ¬(e.src.toNat ≠ e.dst.toNat ∧ e.src.toNat < e.dst.toNat + e.len.toNat ∧ e.dst.toNat < e.src.toNat + e.len.toNat)

/-- The preconditions of CTR_APPLY as spec/41_ctr.md R140 lists them. -/
abbrev CtrPreconditions (e : Engine) : Prop :=
  keyV e.valid = 0xFF ∧ e.num.toNat < 16 ∧ ctrV e.valid = 0xF ∧ (e.num.toNat ≠ 0 → ecV e.valid = 0xF) ∧
    (0 < e.len.toNat → e.src.toNat + e.len.toNat ≤ 2 ^ 32 ∧ e.dst.toNat + e.len.toNat ≤ 2 ^ 32) ∧
    ¬(0 < e.len.toNat ∧ e.src.toNat ≠ e.dst.toNat ∧ e.src.toNat < e.dst.toNat + e.len.toNat ∧
      e.dst.toNat < e.src.toNat + e.len.toNat)

/-- The preconditions of a command (R111, R140). -/
abbrev Preconditions : Instr → Engine → Prop
  | .igeEnc, e => IgePreconditions e
  | .igeDec, e => IgePreconditions e
  | .ctrApply, e => CtrPreconditions e

/-- The operands of a command other than its buffers pass their checks: the key and, for IGE, IV and LEN, or,
for CTR, NUM, CTR and ECOUNT (spec/60_exceptions.md R173). -/
abbrev OperandsPass (i : Instr) (e : Engine) : Prop :=
  e.valid.extractLsb' 0 8 = 0xFF ∧
    (i = .igeEnc ∨ i = .igeDec → e.valid.extractLsb' 8 8 = 0xFF ∧ e.len.toNat ≠ 0 ∧ e.len.toNat % 16 = 0) ∧
    (i = .ctrApply → e.num.toNat < 16 ∧ e.valid.extractLsb' 16 4 = 0xF ∧
      (e.num.toNat ≠ 0 → e.valid.extractLsb' 20 4 = 0xF))

/-- The addressed instance holds `e`, its registers meet the preconditions of IGE_ENC and IGE_DEC, and the
platform serves both buffers (spec/20_memory.md R81). -/
abbrev IgeReady (s : State) (e : Engine) : Prop :=
  s.engines[s.target]? = some e ∧ IgePreconditions e ∧ buffersServed s.platform e = true

/-- The addressed instance holds `e`, its registers meet the preconditions of CTR_APPLY, and the platform
serves both buffers (R81). -/
abbrev CtrReady (s : State) (e : Engine) : Prop :=
  s.engines[s.target]? = some e ∧ CtrPreconditions e ∧ buffersServed s.platform e = true

/-- The address lies in a buffer `[a, a + l)`. -/
abbrev InBuffer (x a l : Nat) : Prop := a ≤ x ∧ x < a + l

/-! The IGE transformation -/

/-- The blocks of a buffer, block 1 first (spec/00_scope.md R14). -/
def readBlocks (m : Memory) : Nat → Nat → List Block
  | _, 0 => []
  | a, n + 1 => readBlock m a :: readBlocks m (a + 16) n

/-- IGE encryption of a list of blocks from the chaining pair `(c, p)`:
C_i = E(P_i XOR C_{i-1}) XOR P_{i-1} (spec/40_ige.md R112). -/
def igeEncrypt (enc : Block → Block) : Block → Block → List Block → List Block
  | _, _, [] => []
  | c, p, x :: xs =>
    let y := xorBytes (enc (xorBytes x c)) p
    y :: igeEncrypt enc y x xs

/-- IGE decryption of a list of blocks: P_i = D(C_i XOR P_{i-1}) XOR C_{i-1} (R113). -/
def igeDecrypt (dec : Block → Block) : Block → Block → List Block → List Block
  | _, _, [] => []
  | c, p, y :: ys =>
    let x := xorBytes (dec (xorBytes y p)) c
    x :: igeDecrypt dec y x ys

/-! The CTR keystream -/

/-- B_j, the keystream block of the counter `t + j` (spec/41_ctr.md R145). -/
def keystreamBlock (enc : Block → Block) (t j : Nat) : Block := enc (beBytes 16 ((t + j) % 2 ^ 128))

/-- KS[q] from the counter value `t`, the offset `m` and the cache `g` (R145). -/
def keystreamByte (enc : Block → Block) (t m : Nat) (g : Block) (q : Nat) : Byte :=
  if m = 0 then byteAt (keystreamBlock enc t ((m + q) / 16)) ((m + q) % 16)
  else if m + q < 16 then byteAt g (m + q)
  else byteAt (keystreamBlock enc t ((m + q) / 16 - 1)) ((m + q) % 16)

/-- R, the number of regenerations of a CTR_APPLY over `l` bytes from the offset `m` (R146). -/
def regenerations (l m : Nat) : Nat := (l + m + 15) / 16 - (if m = 0 then 0 else 1)

/-! Legal states -/

/-- A status word some command can leave: ERR is one of 0 to 3 and 5 to 7, the reserved bits read 0
(spec/10_state.md R38, spec/60_exceptions.md R171). -/
def statusLegal (w : Word) : Bool :=
  [ErrCode.ok, .invalidLength, .invalidKey, .invalidState, .range, .overlap, .illegalCmd].any
    fun c => decide (w = statusOf c)

/-- The reserved bits of VALID read 0 (spec/10_state.md R37). -/
def validLegal (w : Word) : Bool := decide (w.extractLsb' 24 8 = 0)

/-- Every instance's STATUS is legal. -/
def StatusesLegal (s : State) : Prop := ∀ e ∈ s.engines, statusLegal e.status = true

/-- Every instance's VALID is legal. -/
def ValidsLegal (s : State) : Prop := ∀ e ∈ s.engines, validLegal e.valid = true

/-- There is one instance for each register window of the platform (spec/10_state.md R49). -/
def EnginesMatchPlatform (s : State) : Prop := s.engines.length = s.platform.bases.length

/-- The invariant of the machine. -/
structure State.Legal (s : State) : Prop where
  /-- System memory is in its canonical form (log 2). -/
  memory : s.mem.wf = true
  statuses : StatusesLegal s
  valids : ValidsLegal s
  engines : EnginesMatchPlatform s

end Sys2Proof.Machine
end

