-- ==== Sys2Proof/Certificates/Slice0/Obligations.lean ====
section
/-!
DEFINITION. The statements for the provers. Each docstring names the rule of spec/ it formalises, or says
that it is derived.
-/

open Sys2Proof Sys2Proof.Machine

/-! ### Encoding -/

/-- R92: exactly three command words are legal, 0x1 IGE_ENC, 0x2 IGE_DEC and 0x3 CTR_APPLY; the decoder reads
each as its command and no other word as any, and `encode` gives the word back. -/
def Obligations.ExactlyThreeWordsDecode : Prop :=
  (∀ (w : Word) (i : Instr), decode w = .ok i ↔ w = encode i) ∧
    encode .igeEnc = 0x00000001 ∧ encode .igeDec = 0x00000002 ∧ encode .ctrApply = 0x00000003

/-- R92, R95 on single words: the words of the opcode table, and the illegal words of T-ERR-1
(spec/95_test_vectors.md). -/
def Obligations.TableWordsDecode : Prop :=
  decodeTableWord 32 0x00000001 = some .igeEnc ∧ decodeTableWord 32 0x00000002 = some .igeDec ∧
    decodeTableWord 32 0x00000003 = some .ctrApply ∧ decodeTableWord 32 0x00000000 = none ∧
    decodeTableWord 32 0x00000004 = none ∧ decodeTableWord 32 0x0000000F = none ∧
    decodeTableWord 32 0x00000010 = none ∧ decodeTableWord 32 0x00000013 = none ∧
    decodeTableWord 32 0x80000001 = none

/-- Derived from R36, R43, R93: a 32-bit write at the offset of CMD of a word that decodes to `i` is `exec i`
on the instance written to, after the host program has moved to its next action. -/
def Obligations.StepRunsTheDecodedCommand : Prop :=
  ∀ (s : State) (k : Nat) (e : Engine) (v : Word) (i : Instr) (rest : List HostAction),
    s.engines[k]? = some e → s.pending = .regWrite k .word 0x70 v :: rest → decode v = .ok i →
      step s = exec i (selectEngine (advance s rest) k)

/-- Derived from R36, R96 and the model's choice of log 1: the state that `withFetchWord` makes runs its word's
command next, on instance 0. -/
def Obligations.FetchedWordRunsNext : Prop :=
  ∀ (s : State) (e : Engine) (w : Nat) (i : Instr),
    s.engines[0]? = some e → decodeTableWord 32 w = some i →
      step (s.withFetchWord 32 w) = exec i (selectEngine (advance (s.withFetchWord 32 w) s.pending) 0)

/-- R182: a CMD write of any word other than 0x1, 0x2 and 0x3 raises ILLEGAL_CMD (7), whatever the operand
registers hold, and has no other effect (R95). -/
def Obligations.IllegalWordRaisesIllegalCmd : Prop :=
  ∀ (s : State) (k : Nat) (e : Engine) (v : Word) (rest : List HostAction),
    s.engines[k]? = some e → s.pending = .regWrite k .word 0x70 v :: rest →
      v ≠ 0x00000001 → v ≠ 0x00000002 → v ≠ 0x00000003 →
      step s = .next (setEngine (selectEngine (advance s rest) k) k { e with status := 7 })

/-! ### Reset -/

/-- Derived from R48, R202: right after power-on every instance's registers are zero. The empty memory and host
program are the model's choice (logs 1 and 2) and no part of this statement. -/
def Obligations.ResetStateHoldsTheTabledValues : Prop :=
  State.reset.engines ≠ [] ∧ ∀ e ∈ State.reset.engines,
    e.key = Vector.replicate 32 0 ∧ e.iv = Vector.replicate 32 0 ∧ e.ctr = Vector.replicate 16 0 ∧
      e.ecount = Vector.replicate 16 0 ∧ e.num = 0 ∧ e.src = 0 ∧ e.dst = 0 ∧ e.len = 0 ∧ e.status = 0 ∧ e.valid = 0

/-- Derived from R48, R200, R191 and log 18: a reset between steps gives every register of every instance its
tabled value and does not touch system memory. That it resets all the instances at once is the model's inference
from R191 (log 18, DEDUCED). -/
def Obligations.ResetActionClearsEveryRegister : Prop :=
  ∀ (s : State) (rest : List HostAction), s.pending = .reset :: rest →
    ∃ t, step s = .next t ∧ t.mem = s.mem ∧ t.pending = rest ∧ t.observed = s.observed ∧
      t.engines.length = s.engines.length ∧ ∀ e ∈ t.engines,
        e.key = Vector.replicate 32 0 ∧ e.iv = Vector.replicate 32 0 ∧ e.ctr = Vector.replicate 16 0 ∧
          e.ecount = Vector.replicate 16 0 ∧ e.num = 0 ∧ e.src = 0 ∧ e.dst = 0 ∧ e.len = 0 ∧ e.status = 0 ∧
          e.valid = 0

/-- Derived from R37, R38, R48, R49 and the model's form of memory (log 2): the state after reset meets the
machine's invariant. -/
def Obligations.ResetStateIsLegal : Prop := State.reset.Legal

/-! ### The register window -/

/-- R43 and R26 for KEY and IV: a 32-bit write of `v` to word `w` puts `v[8j+7:8j]` in byte 4w+j, sets the
word's VALID bit, and changes nothing else of the machine but the host program's position. -/
def Obligations.WriteToKeyOrIvWord : Prop :=
  ∀ (s : State) (k : Nat) (e : Engine) (v : Word) (w : Fin 8) (rest : List HostAction),
    s.engines[k]? = some e →
      (s.pending = .regWrite k .word (BitVec.ofNat 8 (4 * w.val)) v :: rest →
        ∃ b : Key, ∃ u : Word,
          step s = .next (setEngine (advance s rest) k { e with key := b, valid := u }) ∧
          (∀ j < 4, byteAt b (4 * w.val + j) = v.extractLsb' (8 * j) 8) ∧
          (∀ i < 32, i / 4 ≠ w.val → byteAt b i = byteAt e.key i) ∧
          ∀ n < 32, u.getLsbD n = (e.valid.getLsbD n || decide (n = w.val))) ∧
      (s.pending = .regWrite k .word (BitVec.ofNat 8 (0x20 + 4 * w.val)) v :: rest →
        ∃ b : Iv, ∃ u : Word,
          step s = .next (setEngine (advance s rest) k { e with iv := b, valid := u }) ∧
          (∀ j < 4, byteAt b (4 * w.val + j) = v.extractLsb' (8 * j) 8) ∧
          (∀ i < 32, i / 4 ≠ w.val → byteAt b i = byteAt e.iv i) ∧
          ∀ n < 32, u.getLsbD n = (e.valid.getLsbD n || decide (n = 8 + w.val)))

/-- R43 and R26 for CTR and ECOUNT, as for KEY and IV. -/
def Obligations.WriteToCtrOrEcountWord : Prop :=
  ∀ (s : State) (k : Nat) (e : Engine) (v : Word) (w : Fin 4) (rest : List HostAction),
    s.engines[k]? = some e →
      (s.pending = .regWrite k .word (BitVec.ofNat 8 (0x40 + 4 * w.val)) v :: rest →
        ∃ b : Block, ∃ u : Word,
          step s = .next (setEngine (advance s rest) k { e with ctr := b, valid := u }) ∧
          (∀ j < 4, byteAt b (4 * w.val + j) = v.extractLsb' (8 * j) 8) ∧
          (∀ i < 16, i / 4 ≠ w.val → byteAt b i = byteAt e.ctr i) ∧
          ∀ n < 32, u.getLsbD n = (e.valid.getLsbD n || decide (n = 16 + w.val))) ∧
      (s.pending = .regWrite k .word (BitVec.ofNat 8 (0x50 + 4 * w.val)) v :: rest →
        ∃ b : Block, ∃ u : Word,
          step s = .next (setEngine (advance s rest) k { e with ecount := b, valid := u }) ∧
          (∀ j < 4, byteAt b (4 * w.val + j) = v.extractLsb' (8 * j) 8) ∧
          (∀ i < 16, i / 4 ≠ w.val → byteAt b i = byteAt e.ecount i) ∧
          ∀ n < 32, u.getLsbD n = (e.valid.getLsbD n || decide (n = 20 + w.val)))

/-- R43 for the 32-bit registers: NUM, SRC, DST and LEN take any value written (R30, R35), and nothing else
changes. -/
def Obligations.WriteToNumSrcDstLen : Prop :=
  ∀ (s : State) (k : Nat) (e : Engine) (v : Word) (rest : List HostAction), s.engines[k]? = some e →
    (s.pending = .regWrite k .word 0x60 v :: rest → step s = .next (setEngine (advance s rest) k { e with num := v })) ∧
    (s.pending = .regWrite k .word 0x64 v :: rest → step s = .next (setEngine (advance s rest) k { e with src := v })) ∧
    (s.pending = .regWrite k .word 0x68 v :: rest → step s = .next (setEngine (advance s rest) k { e with dst := v })) ∧
    (s.pending = .regWrite k .word 0x6C v :: rest → step s = .next (setEngine (advance s rest) k { e with len := v }))

/-- R39: writes to STATUS, VALID and the reserved offsets are ignored, reads of KEY, CMD and the reserved
offsets give 0, and none of these accesses is a bus error. -/
def Obligations.IgnoredWritesAndZeroReads : Prop :=
  ∀ (s : State) (k : Nat) (e : Engine) (v : Word) (o : Nat) (rest : List HostAction),
    s.engines[k]? = some e → o ≤ 0xFC → o % 4 = 0 →
      (s.pending = .regWrite k .word (BitVec.ofNat 8 o) v :: rest → 0x74 ≤ o → step s = .next (advance s rest)) ∧
      (s.pending = .regRead k .word (BitVec.ofNat 8 o) :: rest → o < 0x20 ∨ o = 0x70 ∨ 0x7C ≤ o →
        step s = .next (observe (advance s rest) (.word 0)))

/-- R44: a 32-bit read binds the sum over j of byte 4w+j shifted left by 8j, or the 32-bit register itself, or,
for KEY, CMD and the reserved offsets, zero; no state but the bound value and the position changes. -/
def Obligations.ReadsReturnTheRegister : Prop :=
  ∀ (s : State) (k : Nat) (e : Engine) (rest : List HostAction), s.engines[k]? = some e →
    (∀ w < 8, s.pending = .regRead k .word (BitVec.ofNat 8 (0x20 + 4 * w)) :: rest →
      ∃ x : Word, step s = .next (observe (advance s rest) (.word x)) ∧
        x.toNat = (byteAt e.iv (4 * w)).toNat + (byteAt e.iv (4 * w + 1)).toNat * 2 ^ 8 +
          (byteAt e.iv (4 * w + 2)).toNat * 2 ^ 16 + (byteAt e.iv (4 * w + 3)).toNat * 2 ^ 24) ∧
    (∀ w < 4, s.pending = .regRead k .word (BitVec.ofNat 8 (0x40 + 4 * w)) :: rest →
      ∃ x : Word, step s = .next (observe (advance s rest) (.word x)) ∧
        x.toNat = (byteAt e.ctr (4 * w)).toNat + (byteAt e.ctr (4 * w + 1)).toNat * 2 ^ 8 +
          (byteAt e.ctr (4 * w + 2)).toNat * 2 ^ 16 + (byteAt e.ctr (4 * w + 3)).toNat * 2 ^ 24) ∧
    (∀ w < 4, s.pending = .regRead k .word (BitVec.ofNat 8 (0x50 + 4 * w)) :: rest →
      ∃ x : Word, step s = .next (observe (advance s rest) (.word x)) ∧
        x.toNat = (byteAt e.ecount (4 * w)).toNat + (byteAt e.ecount (4 * w + 1)).toNat * 2 ^ 8 +
          (byteAt e.ecount (4 * w + 2)).toNat * 2 ^ 16 + (byteAt e.ecount (4 * w + 3)).toNat * 2 ^ 24) ∧
    (s.pending = .regRead k .word 0x60 :: rest → step s = .next (observe (advance s rest) (.word e.num))) ∧
    (s.pending = .regRead k .word 0x64 :: rest → step s = .next (observe (advance s rest) (.word e.src))) ∧
    (s.pending = .regRead k .word 0x68 :: rest → step s = .next (observe (advance s rest) (.word e.dst))) ∧
    (s.pending = .regRead k .word 0x6C :: rest → step s = .next (observe (advance s rest) (.word e.len))) ∧
    (s.pending = .regRead k .word 0x74 :: rest → step s = .next (observe (advance s rest) (.word e.status))) ∧
    (s.pending = .regRead k .word 0x78 :: rest → step s = .next (observe (advance s rest) (.word e.valid))) ∧
    (∀ o ≤ 0xFC, o % 4 = 0 → o < 0x20 ∨ o = 0x70 ∨ 0x7C ≤ o →
      s.pending = .regRead k .word (BitVec.ofNat 8 o) :: rest → step s = .next (observe (advance s rest) (.word 0)))

/-- R46, U4: a register access of the wrong width, or at an offset that is not a multiple of 4, is a bus
error, which the model faults. -/
def Obligations.WrongWidthOrAlignmentIsABusError : Prop :=
  ∀ (s : State) (k : Nat) (e : Engine) (width : AccessWidth) (off : BitVec 8) (v : Word) (rest : List HostAction),
    s.engines[k]? = some e → width ≠ .word ∨ off.toNat % 4 ≠ 0 →
      s.pending = .regWrite k width off v :: rest ∨ s.pending = .regRead k width off :: rest →
        step s = .fault (.busError k off)

/-- R201: no step but a reset clears a bit of VALID. -/
def Obligations.OnlyResetClearsValidBits : Prop :=
  ∀ (s t : State) (k n : Nat) (e f : Engine), s.pending.head? ≠ some .reset → step s = .next t →
    s.engines[k]? = some e → t.engines[k]? = some f → e.valid.getLsbD n = true → f.valid.getLsbD n = true

/-- R38: a step that writes no CMD register and is no reset leaves every STATUS as it was. -/
def Obligations.OnlyCommandsAndResetWriteStatus : Prop :=
  ∀ (s t : State) (k : Nat) (e f : Engine),
    (∀ j v, s.pending.head? ≠ some (.regWrite j .word 0x70 v)) →
    (∀ cs os, s.pending.head? ≠ some (.overlapped cs os)) → s.pending.head? ≠ some .reset →
      step s = .next t → s.engines[k]? = some e → t.engines[k]? = some f → f.status = e.status

/-- Derived from R27, R43: the key of an instance changes only by a write to one of its KEY words or by
reset. -/
def Obligations.OnlyKeyWritesAndResetChangeKey : Prop :=
  ∀ (s t : State) (k : Nat) (e f : Engine),
    (∀ (w : Fin 8) v, s.pending.head? ≠ some (.regWrite k .word (BitVec.ofNat 8 (4 * w.val)) v)) →
    s.pending.head? ≠ some .reset →
      step s = .next t → s.engines[k]? = some e → t.engines[k]? = some f → f.key = e.key

/-- Derived from R27, R44: no host read tells two keys apart. Two runs of one step that reads, from states
that differ only in the key of one instance, bind the same values. -/
def Obligations.ReadsDoNotRevealTheKey : Prop :=
  ∀ (s t : State) (k : Nat) (e : Engine) (b : Key) (a : HostAction) (rest : List HostAction),
    s.pending = a :: rest → (∃ j width off, a = .regRead j width off) ∨ (∃ x n, a = .load x n) →
      s.engines[k]? = some e → step s = .next t →
        ∃ u, step (setEngine s k { e with key := b }) = .next u ∧ u.observed = t.observed

/-- R45: a register read, and a register write to another offset than that of CMD, leaves system memory
alone; a read changes no register either. -/
def Obligations.OnlyCmdWritesTouchMemory : Prop :=
  ∀ (s t : State) (k : Nat) (width : AccessWidth) (off : BitVec 8) (v : Word) (rest : List HostAction),
    step s = .next t →
      (s.pending = .regRead k width off :: rest → t.engines = s.engines ∧ t.mem = s.mem) ∧
      (s.pending = .regWrite k width off v :: rest → off ≠ 0x70 → t.mem = s.mem)

/-! ### What every command does -/

/-- Derived from R112, R113, R94: where IGE_ENC or IGE_DEC answers a next state, the addressed instance keeps
every register but STATUS, every other instance, the host's side and the platform are as they were, and every
byte outside the output buffer reads as before. -/
def Obligations.IgeCommandsWriteOnlyOutputAndStatus : Prop :=
  ∀ (i : Instr) (s t : State) (e : Engine), i = .igeEnc ∨ i = .igeDec → s.engines[s.target]? = some e →
    exec i s = .next t →
      (∃ x : Word, ∃ m : Memory, t = setMem (setEngine s s.target { e with status := x }) m) ∧
        ∀ a, ¬InBuffer a e.dst.toNat e.len.toNat → readByte t.mem a = readByte s.mem a

/-- Derived from R143, R94: where CTR_APPLY answers a next state, the addressed instance keeps every register
but CTR, ECOUNT, NUM, STATUS and VALID, of VALID every bit outside ECV = [23:20], every other instance, the
host's side and the platform are as they were, and every byte outside the output buffer reads as before. -/
def Obligations.CtrApplyWritesOnlyOutputAndStream : Prop :=
  ∀ (s t : State) (e : Engine), s.engines[s.target]? = some e → exec .ctrApply s = .next t →
    (∃ (c g : Block) (n x u : Word) (m : Memory),
      t = setMem (setEngine s s.target { e with ctr := c, ecount := g, num := n, status := x, valid := u }) m ∧
        ∀ b, b < 20 ∨ 24 ≤ b → u.getLsbD b = e.valid.getLsbD b) ∧
      ∀ a, ¬InBuffer a e.dst.toNat e.len.toNat → readByte t.mem a = readByte s.mem a

/-- R32: no command writes SRC, DST or LEN, of any instance. -/
def Obligations.NoCommandWritesSrcDstLen : Prop :=
  ∀ (i : Instr) (s t : State) (k : Nat) (e f : Engine), exec i s = .next t →
    s.engines[k]? = some e → t.engines[k]? = some f → f.src = e.src ∧ f.dst = e.dst ∧ f.len = e.len

/-- R174: a command that ends with an error code has STATUS as its one effect: no byte of memory and no other
register changes. -/
def Obligations.ErrorsAreFailFast : Prop :=
  ∀ (i : Instr) (s t : State) (e f : Engine), exec i s = .next t → s.engines[s.target]? = some e →
    t.engines[s.target]? = some f → f.status ≠ 0 → t = setEngine s s.target { e with status := f.status }

/-- R172: the codes each command can leave. A word that raises ILLEGAL_CMD is none of the three commands. -/
def Obligations.CodesOfEachCommand : Prop :=
  ∀ (i : Instr) (s t : State) (f : Engine), exec i s = .next t → t.engines[s.target]? = some f →
    (i = .igeEnc ∨ i = .igeDec → f.status ∈ [(0 : Word), 2, 1, 5, 6]) ∧
      (i = .ctrApply → f.status ∈ [(0 : Word), 2, 3, 5, 6])

/-- R173: a write of `v` to CMD evaluates the checks in the order of the rule and stops at the first failure,
whose code STATUS takes with no other effect; if all of them pass, no error is raised. -/
def Obligations.ChecksRunInOrder : Prop :=
  ∀ (s : State) (k : Nat) (e : Engine) (v : Word) (rest : List HostAction),
    s.engines[k]? = some e → s.pending = .regWrite k .word 0x70 v :: rest →
      let raised (code : Word) : Prop :=
        step s = .next (setEngine (selectEngine (advance s rest) k) k { e with status := code })
      let buffers : Prop :=
        if 0 < e.len.toNat ∧ ¬(e.src.toNat + e.len.toNat ≤ 2 ^ 32 ∧ e.dst.toNat + e.len.toNat ≤ 2 ^ 32) then raised 5
        else if 0 < e.len.toNat ∧ e.src ≠ e.dst ∧ e.src.toNat < e.dst.toNat + e.len.toNat ∧
            e.dst.toNat < e.src.toNat + e.len.toNat then raised 6
        else step s = .fault (.dmaStuck k) ∨
          ∃ t f, step s = .next t ∧ t.engines[k]? = some f ∧ f.status = 0
      if v ≠ 0x00000001 ∧ v ≠ 0x00000002 ∧ v ≠ 0x00000003 then raised 7
      else if e.valid.extractLsb' 0 8 ≠ 0xFF then raised 2
      else if v.extractLsb' 0 4 = 0x1 ∨ v.extractLsb' 0 4 = 0x2 then
        if e.valid.extractLsb' 8 8 ≠ 0xFF then raised 1
        else if e.len.toNat = 0 ∨ e.len.toNat % 16 ≠ 0 then raised 1
        else buffers
      else if 16 ≤ e.num.toNat then raised 3
      else if e.valid.extractLsb' 16 4 ≠ 0xF then raised 3
      else if e.num.toNat ≠ 0 ∧ e.valid.extractLsb' 20 4 ≠ 0xF then raised 3
      else buffers

/-- R178: every command raises INVALID_KEY (2) when some KEY word has not been written since reset. -/
def Obligations.UnwrittenKeyRaisesInvalidKey : Prop :=
  ∀ (i : Instr) (s : State) (e : Engine), s.engines[s.target]? = some e → e.valid.extractLsb' 0 8 ≠ 0xFF →
    exec i s = .next (setEngine s s.target { e with status := 2 })

/-- R177: with the key written, IGE_ENC and IGE_DEC raise INVALID_LENGTH (1) when some IV word has not been
written since reset, or LEN is 0, or LEN is not a multiple of 16. -/
def Obligations.BadLengthOrIvRaisesInvalidLength : Prop :=
  ∀ (i : Instr) (s : State) (e : Engine), i = .igeEnc ∨ i = .igeDec → s.engines[s.target]? = some e →
    e.valid.extractLsb' 0 8 = 0xFF →
      e.valid.extractLsb' 8 8 ≠ 0xFF ∨ e.len.toNat = 0 ∨ e.len.toNat % 16 ≠ 0 →
        exec i s = .next (setEngine s s.target { e with status := 1 })

/-- R179: with the key written, CTR_APPLY raises INVALID_STATE (3) when NUM is 16 or more, or some CTR word has
not been written since reset, or NUM is not 0 and some ECOUNT word has neither been written nor regenerated. -/
def Obligations.BadStreamStateRaisesInvalidState : Prop :=
  ∀ (s : State) (e : Engine), s.engines[s.target]? = some e → e.valid.extractLsb' 0 8 = 0xFF →
    16 ≤ e.num.toNat ∨ e.valid.extractLsb' 16 4 ≠ 0xF ∨ (e.num.toNat ≠ 0 ∧ e.valid.extractLsb' 20 4 ≠ 0xF) →
      exec .ctrApply s = .next (setEngine s s.target { e with status := 3 })

/-- R180: a command whose operand checks pass raises RANGE (5) when LEN > 0 and the input or the output buffer
runs past 2^32. -/
def Obligations.BufferPastTopRaisesRange : Prop :=
  ∀ (i : Instr) (s : State) (e : Engine), s.engines[s.target]? = some e → OperandsPass i e → 0 < e.len.toNat →
    2 ^ 32 < e.src.toNat + e.len.toNat ∨ 2 ^ 32 < e.dst.toNat + e.len.toNat →
      exec i s = .next (setEngine s s.target { e with status := 5 })

/-- R181: a command whose other checks pass raises OVERLAP (6) when its buffers overlap without being equal. -/
def Obligations.PartialOverlapRaisesOverlap : Prop :=
  ∀ (i : Instr) (s : State) (e : Engine), s.engines[s.target]? = some e → OperandsPass i e →
    e.src.toNat + e.len.toNat ≤ 2 ^ 32 → e.dst.toNat + e.len.toNat ≤ 2 ^ 32 → 0 < e.len.toNat →
      e.src ≠ e.dst → e.src.toNat < e.dst.toNat + e.len.toNat → e.dst.toNat < e.src.toNat + e.len.toNat →
        exec i s = .next (setEngine s s.target { e with status := 6 })

/-- R81: a command whose checks pass is stuck exactly when a buffer holds an address that is not admitted or
lies in a register window; otherwise it answers a next state. -/
def Obligations.StuckExactlyOnUnservedBuffers : Prop :=
  ∀ (i : Instr) (s : State) (e : Engine), s.engines[s.target]? = some e → Preconditions i e →
    ((∃ a, (InBuffer a e.src.toNat e.len.toNat ∨ InBuffer a e.dst.toNat e.len.toNat) ∧
        ((¬∃ r ∈ s.platform.admitted, r.lo ≤ a ∧ a < r.lo + r.size) ∨
          ∃ b ∈ s.platform.bases, b.val ≤ a ∧ a < b.val + 256)) ↔
      exec i s = .fault (.dmaStuck s.target)) ∧
    (exec i s = .fault (.dmaStuck s.target) ∨ ∃ t, exec i s = .next t)

/-- Derived from R112, R81, T-IGE-8 and log 5 (DEDUCED): the largest legal LEN, 0xFFFFFFF0, passes the checks of IGE_ENC and
IGE_DEC in place at an address up to 0x10, and is then stuck, on every platform. -/
def Obligations.LargestIgeLengthIsStuck : Prop :=
  ∀ (i : Instr) (s : State) (e : Engine), i = .igeEnc ∨ i = .igeDec → s.engines[s.target]? = some e →
    e.valid.extractLsb' 0 8 = 0xFF → e.valid.extractLsb' 8 8 = 0xFF → e.len = 0xFFFFFFF0 →
      e.src.toNat ≤ 0x10 → e.dst = e.src → exec i s = .fault (.dmaStuck s.target)

/-! ### IGE -/

/-- R112: IGE_ENC, with its preconditions met, completes: the output buffer holds the chain
C_i = E(K, P_i XOR C_{i-1}) XOR P_{i-1} of the input blocks, from C_0 = IV[0..15] and P_0 = IV[16..31],
STATUS.ERR is 0, and nothing else changes. In place or not. -/
def Obligations.IgeEncCompletesWithTheChain : Prop :=
  ∀ (s : State) (e : Engine), s.mem.wf = true → IgeReady s e →
    ∃ m, exec .igeEnc s = .next (setMem (setEngine s s.target { e with status := 0 }) m) ∧
      (∀ a, ¬InBuffer a e.dst.toNat e.len.toNat → readByte m a = readByte s.mem a) ∧
      readBlock m e.dst.toNat =
        xorBytes (Config.cipher e.key (xorBytes (readBlock s.mem e.src.toNat)
          (Vector.ofFn fun j => byteAt e.iv j.val))) (Vector.ofFn fun j => byteAt e.iv (16 + j.val)) ∧
      ∀ i, 0 < i → i < e.len.toNat / 16 →
        readBlock m (e.dst.toNat + 16 * i) =
          xorBytes (Config.cipher e.key (xorBytes (readBlock s.mem (e.src.toNat + 16 * i))
            (readBlock m (e.dst.toNat + 16 * (i - 1))))) (readBlock s.mem (e.src.toNat + 16 * (i - 1)))

/-- R113: IGE_DEC, with its preconditions met, completes: the output buffer holds the chain
P_i = D(K, C_i XOR P_{i-1}) XOR C_{i-1} of the input blocks, from C_0 = IV[0..15] and P_0 = IV[16..31],
STATUS.ERR is 0, and nothing else changes. In place or not. -/
def Obligations.IgeDecCompletesWithTheChain : Prop :=
  ∀ (s : State) (e : Engine), s.mem.wf = true → IgeReady s e →
    ∃ m, exec .igeDec s = .next (setMem (setEngine s s.target { e with status := 0 }) m) ∧
      (∀ a, ¬InBuffer a e.dst.toNat e.len.toNat → readByte m a = readByte s.mem a) ∧
      readBlock m e.dst.toNat =
        xorBytes ((Config.cipher e.key).symm (xorBytes (readBlock s.mem e.src.toNat)
          (Vector.ofFn fun j => byteAt e.iv (16 + j.val)))) (Vector.ofFn fun j => byteAt e.iv j.val) ∧
      ∀ i, 0 < i → i < e.len.toNat / 16 →
        readBlock m (e.dst.toNat + 16 * i) =
          xorBytes ((Config.cipher e.key).symm (xorBytes (readBlock s.mem (e.src.toNat + 16 * i))
            (readBlock m (e.dst.toNat + 16 * (i - 1))))) (readBlock s.mem (e.src.toNat + 16 * (i - 1)))

/-- R115: IGE_DEC of what IGE_ENC wrote, with the same key and IV and any admitted output buffer, gives the
input of IGE_ENC back, and the other way round. The second command runs on the state the first left, with the
addressed instance's registers as `f` says. -/
def Obligations.IgeRoundTrip : Prop :=
  ∀ (s : State) (e f : Engine), s.mem.wf = true → IgeReady s e → IgePreconditions f →
    buffersServed s.platform f = true → f.key = e.key → f.iv = e.iv → f.len = e.len → f.src = e.dst →
      (∃ t u, exec .igeEnc s = .next t ∧ exec .igeDec (setEngine t s.target f) = .next u ∧
        ∀ q < e.len.toNat, readByte u.mem (f.dst.toNat + q) = readByte s.mem (e.src.toNat + q)) ∧
      (∃ t u, exec .igeDec s = .next t ∧ exec .igeEnc (setEngine t s.target f) = .next u ∧
        ∀ q < e.len.toNat, readByte u.mem (f.dst.toNat + q) = readByte s.mem (e.src.toNat + q))

/-- R119: the output bytes of an IGE command depend on the key, the IV and the input bytes alone: not on SRC,
not on DST, and not on whether the command works in place. -/
def Obligations.IgeOutputIndependentOfPlacement : Prop :=
  ∀ (i : Instr) (s s' : State) (e e' : Engine), i = .igeEnc ∨ i = .igeDec → s.mem.wf = true → s'.mem.wf = true →
    IgeReady s e → IgeReady s' e' → e'.key = e.key → e'.iv = e.iv → e'.len = e.len →
      (∀ q < e.len.toNat, readByte s'.mem (e'.src.toNat + q) = readByte s.mem (e.src.toNat + q)) →
        ∃ t t', exec i s = .next t ∧ exec i s' = .next t' ∧
          ∀ q < e.len.toNat, readByte t'.mem (e'.dst.toNat + q) = readByte t.mem (e.dst.toNat + q)

/-- R117: a message of more than `j` blocks may be done as two commands, the first over its first `j` blocks
and the second over the rest with IV rewritten to C_j ++ P_j; the first command leaves the first `j` output
blocks, and the two leave memory as one command does. -/
def Obligations.IgeContinuation : Prop :=
  ∀ (i : Instr) (s : State) (e : Engine) (j : Nat), i = .igeEnc ∨ i = .igeDec → s.mem.wf = true → IgeReady s e →
    0 < j → 16 * j < e.len.toNat →
      ∃ t u v x y, exec i s = .next t ∧
        exec i (setEngine s s.target { e with len := BitVec.ofNat 32 (16 * j) }) = .next u ∧
        (∀ q < 16 * j, readByte u.mem (e.dst.toNat + q) = readByte t.mem (e.dst.toNat + q)) ∧
        x = readBlock s.mem (e.src.toNat + 16 * (j - 1)) ∧ y = readBlock u.mem (e.dst.toNat + 16 * (j - 1)) ∧
        exec i (setEngine u s.target
          { e with
            iv := if i = .igeEnc then y ++ x else x ++ y
            src := e.src + BitVec.ofNat 32 (16 * j)
            dst := e.dst + BitVec.ofNat 32 (16 * j)
            len := e.len - BitVec.ofNat 32 (16 * j) }) = .next v ∧
        v.mem = t.mem

/-- Derived from R116 (its cases 1, 2 and 4, for IGE_DEC and IGE_ENC alike): two runs whose input blocks differ
in block `j` alone give the same blocks before `j`, different blocks `j`, and, once a later block `k` comes
out the same, the same blocks from `k` on. -/
def Obligations.IgeErrorPropagation : Prop :=
  ∀ (i : Instr) (s : State) (m : Memory) (e : Engine) (j : Nat), i = .igeEnc ∨ i = .igeDec → s.mem.wf = true →
    m.wf = true → IgeReady s e → j < e.len.toNat / 16 →
      (∀ n < e.len.toNat / 16, n ≠ j →
        readBlock m (e.src.toNat + 16 * n) = readBlock s.mem (e.src.toNat + 16 * n)) →
      readBlock m (e.src.toNat + 16 * j) ≠ readBlock s.mem (e.src.toNat + 16 * j) →
        ∃ t t', exec i s = .next t ∧ exec i (setMem s m) = .next t' ∧
          (∀ n < j, readBlock t'.mem (e.dst.toNat + 16 * n) = readBlock t.mem (e.dst.toNat + 16 * n)) ∧
          readBlock t'.mem (e.dst.toNat + 16 * j) ≠ readBlock t.mem (e.dst.toNat + 16 * j) ∧
          ∀ k, j < k → k < e.len.toNat / 16 →
            readBlock t'.mem (e.dst.toNat + 16 * k) = readBlock t.mem (e.dst.toNat + 16 * k) →
              ∀ n, k ≤ n → n < e.len.toNat / 16 →
                readBlock t'.mem (e.dst.toNat + 16 * n) = readBlock t.mem (e.dst.toNat + 16 * n)

/-! ### CTR -/

/-- R145 and R146: CTR_APPLY, with its preconditions met, completes: output byte q is input byte q XOR KS[q];
CTR, ECOUNT, NUM and VALID.ECV end as R146 says, STATUS.ERR is 0, and nothing else changes. In place or not. -/
def Obligations.CtrApplyCompletesInClosedForm : Prop :=
  ∀ (s : State) (e : Engine), s.mem.wf = true → CtrReady s e →
    ∃ m, exec .ctrApply s = .next (setMem (setEngine s s.target
        { e with
          ctr := beBytes 16 ((beNat e.ctr + regenerations e.len.toNat e.num.toNat) % 2 ^ 128)
          ecount := if regenerations e.len.toNat e.num.toNat = 0 then e.ecount
            else keystreamBlock (Config.cipher e.key) (beNat e.ctr) (regenerations e.len.toNat e.num.toNat - 1)
          num := BitVec.ofNat 32 ((e.num.toNat + e.len.toNat) % 16)
          valid := if regenerations e.len.toNat e.num.toNat = 0 then e.valid else e.valid ||| 0x00F00000
          status := 0 }) m) ∧
      (∀ a, ¬InBuffer a e.dst.toNat e.len.toNat → readByte m a = readByte s.mem a) ∧
      ∀ q < e.len.toNat, readByte m (e.dst.toNat + q) =
        readByte s.mem (e.src.toNat + q) ^^^
          keystreamByte (Config.cipher e.key) (beNat e.ctr) e.num.toNat e.ecount q

/-- R149: CTR_APPLY with LEN = 0 that passes its checks changes nothing but STATUS, which is 0. -/
def Obligations.ZeroLengthCtrChangesOnlyStatus : Prop :=
  ∀ (s : State) (e : Engine), s.engines[s.target]? = some e → CtrPreconditions e → e.len = 0 →
    exec .ctrApply s = .next (setEngine s s.target { e with status := 0 })

/-- R150: where the counter is all ones when a regeneration happens, ECOUNT becomes its encryption and CTR
becomes zero, with no error: here for a first block of 1 to 16 bytes. -/
def Obligations.CounterWrapsWithoutError : Prop :=
  ∀ (s : State) (e : Engine), CtrReady s e → e.num = 0 → 0 < e.len.toNat → e.len.toNat ≤ 16 →
    e.ctr = Vector.replicate 16 0xFF →
      ∃ t f, exec .ctrApply s = .next t ∧ t.engines[s.target]? = some f ∧
        f.ecount = Config.cipher e.key (Vector.replicate 16 0xFF) ∧ f.ctr = Vector.replicate 16 0 ∧ f.status = 0

/-- R147: CTR_APPLY run on its own output, with the stream state written back, gives the input back, and both
runs end in the same stream state. The second command runs on the state the first left, with the addressed
instance's registers as `f` says. -/
def Obligations.CtrApplyTwiceIsIdentity : Prop :=
  ∀ (s : State) (e f : Engine), s.mem.wf = true → CtrReady s e → CtrPreconditions f →
    buffersServed s.platform f = true → f.key = e.key → f.ctr = e.ctr → f.ecount = e.ecount → f.num = e.num →
      f.len = e.len → f.src = e.dst →
        ∃ t u g h, exec .ctrApply s = .next t ∧ exec .ctrApply (setEngine t s.target f) = .next u ∧
          (∀ q < e.len.toNat, readByte u.mem (f.dst.toNat + q) = readByte s.mem (e.src.toNat + q)) ∧
          t.engines[s.target]? = some g ∧ u.engines[s.target]? = some h ∧
          h.ctr = g.ctr ∧ h.ecount = g.ecount ∧ h.num = g.num

/-- R148: a CTR stream split at any point `j` and done as two commands, the second on the registers the first
left with SRC, DST and LEN moved on, leaves memory and the stream as one command does. -/
def Obligations.CtrApplyResumes : Prop :=
  ∀ (s : State) (e : Engine) (j : Nat), CtrReady s e → j ≤ e.len.toNat →
    ∃ t u v f g h, exec .ctrApply s = .next t ∧ t.engines[s.target]? = some f ∧
      exec .ctrApply (setEngine s s.target { e with len := BitVec.ofNat 32 j }) = .next u ∧
      u.engines[s.target]? = some g ∧
      exec .ctrApply (setEngine u s.target
        { g with
          src := e.src + BitVec.ofNat 32 j
          dst := e.dst + BitVec.ofNat 32 j
          len := e.len - BitVec.ofNat 32 j }) = .next v ∧
      v.engines[s.target]? = some h ∧
      v.mem = t.mem ∧ h.ctr = f.ctr ∧ h.ecount = f.ecount ∧ h.num = f.num ∧ h.valid = f.valid ∧ h.status = f.status

/-- Derived from R35, U12: with NUM = 0 the content of ECOUNT reaches no output byte, and no register once a
byte is processed. -/
def Obligations.ExhaustedCacheIsNotUsed : Prop :=
  ∀ (s : State) (e : Engine) (b : Block), CtrReady s e → e.num = 0 → 0 < e.len.toNat →
    exec .ctrApply (setEngine s s.target { e with ecount := b }) = exec .ctrApply s

/-! ### Memory, several instances, other agents -/

/-- Derived from R96, R61 and the model's choice of log 17 (what a load binds is kept in a list): the host reads
back the bytes it stored, and a store leaves every other byte alone. -/
def Obligations.HostLoadAfterStore : Prop :=
  ∀ (s : State) (a : Word) (bs : List Byte) (rest : List HostAction), s.mem.wf = true →
    s.pending = .store a bs :: .load a bs.length :: rest → a.toNat + bs.length ≤ 2 ^ 32 →
      rangeAll (fun x => !inWindow s.platform x) a.toNat bs.length = true →
        ∃ t u, step s = .next t ∧ step t = .next u ∧ u.observed = s.observed ++ [.bytes bs] ∧
          u.engines = s.engines ∧
          ∀ x, ¬InBuffer x a.toNat bs.length → readByte u.mem x = readByte s.mem x

/-- Derived from R49: a command reads and writes only its own instance and system memory. Every other
instance is as it was, and what the others hold changes neither memory nor the instance. -/
def Obligations.InstancesAreIsolated : Prop :=
  ∀ (i : Instr) (s t : State), exec i s = .next t →
    (∀ k, k ≠ s.target → t.engines[k]? = s.engines[k]?) ∧
      ∀ l : List Engine, l[s.target]? = s.engines[s.target]? →
        ∃ u, exec i { s with engines := l } = .next u ∧ u.mem = t.mem ∧
          u.engines[s.target]? = t.engines[s.target]?

/-- R76: a run in which another agent writes a byte of the input or output buffer, or reads a byte of the
output buffer, of a command that runs at the same time, is refused. -/
def Obligations.AgentInABufferIsARace : Prop :=
  ∀ (s : State) (k : Nat) (e : Engine) (i : Instr) (x : Word) (cs : List (Nat × Word)) (os : List AgentEvent)
    (rest : List HostAction),
    s.pending = .overlapped cs os :: rest → (k, encode i) ∈ cs → s.engines[k]? = some e → Preconditions i e →
      AgentEvent.reset ∉ os →
      ((∃ v, AgentEvent.write x v ∈ os) ∧
          (InBuffer x.toNat e.src.toNat e.len.toNat ∨ InBuffer x.toNat e.dst.toNat e.len.toNat)) ∨
        (AgentEvent.read x ∈ os ∧ InBuffer x.toNat e.dst.toNat e.len.toNat) →
        step s = .refused .race

/-- R80: two commands of distinct instances that run at the same time, where a byte written by one is read or
written by the other, are a race that is refused. -/
def Obligations.ConflictingInstancesAreARace : Prop :=
  ∀ (s : State) (j k : Nat) (e f : Engine) (i i' : Instr) (x : Nat) (cs : List (Nat × Word))
    (os : List AgentEvent) (rest : List HostAction),
    s.pending = .overlapped cs os :: rest → (j, encode i) ∈ cs → (k, encode i') ∈ cs → j ≠ k →
      AgentEvent.reset ∉ os →
      s.engines[j]? = some e → s.engines[k]? = some f → Preconditions i e → Preconditions i' f →
        InBuffer x e.dst.toNat e.len.toNat →
          InBuffer x f.src.toNat f.len.toNat ∨ InBuffer x f.dst.toNat f.len.toNat →
          step s = .refused .race

/-- Derived from R80, R49 and log 12: two commands of distinct instances that do not race may be served in
either order: both orders leave the same memory and the same instances. -/
def Obligations.ConcurrentCommandsCommute : Prop :=
  ∀ (s t u : State) (j k : Nat) (v w : Word), s.mem.wf = true → j ≠ k → races s [(j, v), (k, w)] [] = false →
    overlapped [(j, v), (k, w)] [] s = .next t → overlapped [(k, w), (j, v)] [] s = .next u →
      u.mem = t.mem ∧ u.engines = t.engines

/-- Derived from R200, U6: a reset asserted inside a command has no meaning and is refused. -/
def Obligations.ResetInsideACommandIsRefused : Prop :=
  ∀ (s : State) (cs : List (Nat × Word)) (os : List AgentEvent) (rest : List HostAction),
    s.pending = .overlapped cs os :: rest → AgentEvent.reset ∈ os → step s = .refused .resetDuringCommand

/-- Derived from R99, R194 and the model's choice of log 1: with no action left the machine is idle and keeps
all its state. -/
def Obligations.IdleAtTheEndOfTheProgram : Prop :=
  ∀ s : State, s.pending = [] → step s = .next s

/-! ### Invariants of every step -/

/-- Derived from R37, R38, R49, R171: every step keeps the machine legal, that is system memory in its canonical
form (the model's, log 2), every STATUS a code that R171 lets a command leave with its reserved bits 0, the
reserved bits of VALID 0 (R37), and one instance for each window of the platform (R49). -/
def Obligations.EveryStepKeepsTheMachineLegal : Prop :=
  ∀ s t : State, s.Legal → step s = .next t → t.Legal

/-- Derived from R23, R99 and the model's choices of logs 1, 4 and 17: a step changes no platform parameter (kept
in the state by log 4) and no number of instances, never unbinds a value the host has read (log 17), and moves the
host program on by one action, or not at all at its end (log 1). -/
def Obligations.EveryStepKeepsPlatformAndHistory : Prop :=
  ∀ s t : State, step s = .next t →
    t.platform = s.platform ∧ t.engines.length = s.engines.length ∧
      (∃ new, t.observed = s.observed ++ new) ∧
      t.pending = s.pending.tail ∧ t.pos + t.pending.length = s.pos + s.pending.length
end

