-- ==== Sys2Proof/Laws/Memory.lean ====
section
/-!
SUPPORT. The laws of system memory: a read after a write, what a write leaves alone, that every operation
keeps the canonical form, and that the canonical form is unique.
-/

namespace Sys2Proof.Machine

theorem wfFrom_cons {lo a : Nat} {v : Byte} {r : Memory} :
    Memory.wfFrom lo ((a, v) :: r) = true ↔
      lo ≤ a ∧ a < 4294967296 ∧ v ≠ Memory.unlisted ∧ Memory.wfFrom (a + 1) r = true := by
  simp [Memory.wfFrom, and_assoc]

theorem wfFrom_mono {lo lo' : Nat} {m : Memory} (h : lo ≤ lo') (hm : Memory.wfFrom lo' m = true) :
    Memory.wfFrom lo m = true := by
  cases m with
  | nil => rfl
  | cons c r =>
    obtain ⟨a, v⟩ := c
    rw [wfFrom_cons] at hm ⊢
    exact ⟨h.trans hm.1, hm.2⟩

/-- Below the first listed address every byte is unlisted. -/
theorem readByte_below {lo a : Nat} {m : Memory} (hm : Memory.wfFrom lo m = true) (h : a < lo) :
    readByte m a = Memory.unlisted := by
  induction m generalizing lo with
  | nil => rfl
  | cons c r ih =>
    obtain ⟨b, u⟩ := c
    rw [wfFrom_cons] at hm
    rw [readByte, if_neg (by omega)]
    exact ih hm.2.2.2 (by omega)

/-- A write keeps the canonical form. -/
theorem wfFrom_writeByte {lo a : Nat} {m : Memory} {v : Byte} (hm : Memory.wfFrom lo m = true)
    (h : lo ≤ a) (ha : a < 4294967296) : Memory.wfFrom lo (writeByte m a v) = true := by
  induction m generalizing lo with
  | nil =>
    rw [writeByte]
    split
    · rfl
    · exact wfFrom_cons.2 ⟨h, ha, ‹_›, rfl⟩
  | cons c r ih =>
    obtain ⟨b, u⟩ := c
    have hb := wfFrom_cons.1 hm
    rw [writeByte]
    split
    · split
      · exact hm
      · exact wfFrom_cons.2 ⟨h, ha, ‹_›, wfFrom_cons.2 ⟨by omega, hb.2⟩⟩
    · split
      · split
        · exact wfFrom_mono (by omega) hb.2.2.2
        · exact wfFrom_cons.2 ⟨h, ha, ‹_›, by subst a; exact hb.2.2.2⟩
      · exact wfFrom_cons.2 ⟨hb.1, hb.2.1, hb.2.2.1, ih hb.2.2.2 (by omega)⟩

theorem wf_writeByte {a : Nat} {m : Memory} {v : Byte} (hm : m.wf = true) (ha : a < 4294967296) :
    Memory.wf (writeByte m a v) = true :=
  wfFrom_writeByte hm (Nat.zero_le a) ha

/-- A read after a write to the same address gives the value written. -/
theorem readByte_writeByte_same {lo a : Nat} {m : Memory} {v : Byte} (hm : Memory.wfFrom lo m = true) :
    readByte (writeByte m a v) a = v := by
  induction m generalizing lo with
  | nil =>
    rw [writeByte]
    split
    · exact ‹v = _›.symm
    · simp [readByte]
  | cons c r ih =>
    obtain ⟨b, u⟩ := c
    have hb := wfFrom_cons.1 hm
    rw [writeByte]
    split
    · split
      · rw [‹v = _›]
        exact readByte_below (wfFrom_cons.2 ⟨Nat.le_refl b, hb.2⟩) ‹_›
      · simp [readByte]
    · split
      · split
        · rw [‹v = _›]
          exact readByte_below hb.2.2.2 (by omega)
        · simp [readByte]
      · rw [readByte, if_neg ‹_›]
        exact ih hb.2.2.2

/-- A write leaves every other address alone. -/
theorem readByte_writeByte_other {a b : Nat} {m : Memory} {v : Byte} (h : b ≠ a) :
    readByte (writeByte m a v) b = readByte m b := by
  induction m with
  | nil =>
    rw [writeByte]
    split
    · rfl
    · simp [readByte, h]
  | cons c r ih =>
    obtain ⟨d, u⟩ := c
    rw [writeByte]
    split
    · split
      · rfl
      · rw [readByte, if_neg h]
    · split
      · subst a
        split
        · rw [readByte, if_neg h]
        · rw [readByte, if_neg h, readByte, if_neg h]
      · rw [readByte, readByte, ih]

theorem readByte_writeByte {a b : Nat} {m : Memory} {v : Byte} (hm : m.wf = true) :
    readByte (writeByte m a v) b = if b = a then v else readByte m b := by
  split
  · subst b
    exact readByte_writeByte_same hm
  · exact readByte_writeByte_other ‹_›

/-- Two memories in canonical form with the same bytes are equal. -/
theorem memory_ext {lo : Nat} {m m' : Memory} (hm : Memory.wfFrom lo m = true) (hm' : Memory.wfFrom lo m' = true)
    (h : ∀ a, readByte m a = readByte m' a) : m = m' := by
  induction m generalizing lo m' with
  | nil =>
    cases m' with
    | nil => rfl
    | cons c r =>
      obtain ⟨b, u⟩ := c
      have hb := wfFrom_cons.1 hm'
      have := h b
      rw [readByte, readByte, if_pos rfl] at this
      exact absurd this.symm hb.2.2.1
  | cons c r ih =>
    obtain ⟨a, v⟩ := c
    have ha := wfFrom_cons.1 hm
    cases m' with
    | nil =>
      have := h a
      rw [readByte, readByte, if_pos rfl] at this
      exact absurd this ha.2.2.1
    | cons c' r' =>
      obtain ⟨b, u⟩ := c'
      have hb := wfFrom_cons.1 hm'
      have hab : a = b := by
        rcases Nat.lt_trichotomy a b with hlt | heq | hgt
        · have := h a
          rw [readByte, if_pos rfl, readByte_below (wfFrom_cons.2 ⟨Nat.le_refl b, hb.2⟩) hlt] at this
          exact absurd this ha.2.2.1
        · exact heq
        · have := h b
          rw [readByte_below (wfFrom_cons.2 ⟨Nat.le_refl a, ha.2⟩) hgt, readByte, if_pos rfl] at this
          exact absurd this.symm hb.2.2.1
      subst hab
      have hvu : v = u := by
        have := h a
        rwa [readByte, if_pos rfl, readByte, if_pos rfl] at this
      have hr : r = r' := by
        refine ih ha.2.2.2 hb.2.2.2 fun x => ?_
        by_cases hx : x = a
        · rw [readByte_below ha.2.2.2 (by omega), readByte_below hb.2.2.2 (by omega)]
        · have := h x
          rwa [readByte, if_neg hx, readByte, if_neg hx] at this
      rw [hvu, hr]

/-! Byte strings -/

theorem wf_writeList {m : Memory} {a : Nat} {bs : List Byte} (hm : m.wf = true)
    (h : a + bs.length ≤ 4294967296) : Memory.wf (writeList m a bs) = true := by
  induction bs generalizing m a with
  | nil => exact hm
  | cons v r ih =>
    rw [List.length_cons] at h
    exact ih (wf_writeByte hm (by omega)) (by omega)

/-- Outside the bytes written, memory is as it was. -/
theorem readByte_writeList_outside {m : Memory} {a b : Nat} {bs : List Byte} (h : b < a ∨ a + bs.length ≤ b) :
    readByte (writeList m a bs) b = readByte m b := by
  induction bs generalizing m a with
  | nil => rfl
  | cons v r ih =>
    rw [List.length_cons] at h
    rw [writeList, ih (by omega), readByte_writeByte_other (by omega)]

/-- Byte `i` written is read back at `a + i`. -/
theorem readByte_writeList_inside {m : Memory} {a i : Nat} {bs : List Byte} (hm : m.wf = true)
    (ha : a + bs.length ≤ 4294967296) (hi : i < bs.length) : readByte (writeList m a bs) (a + i) = bs[i] := by
  induction bs generalizing m a i with
  | nil => exact absurd hi (Nat.not_lt_zero i)
  | cons v r ih =>
    rw [List.length_cons] at ha hi
    cases i with
    | zero =>
      rw [writeList, readByte_writeList_outside (by omega)]
      exact readByte_writeByte_same hm
    | succ j =>
      rw [writeList, show a + (j + 1) = a + 1 + j by omega,
        ih (wf_writeByte hm (by omega)) (by omega) (by omega)]
      rfl

/-! Blocks -/

theorem wf_writeBlock {m : Memory} {a : Nat} {b : Block} (hm : m.wf = true) (h : a + 16 ≤ 4294967296) :
    Memory.wf (writeBlock m a b) = true :=
  wf_writeList hm (by simpa using h)

theorem readByte_writeBlock_outside {m : Memory} {a x : Nat} {b : Block} (h : x < a ∨ a + 16 ≤ x) :
    readByte (writeBlock m a b) x = readByte m x :=
  readByte_writeList_outside (by simpa using h)

theorem readBlock_writeBlock_same {m : Memory} {a : Nat} {b : Block} (hm : m.wf = true) (h : a + 16 ≤ 4294967296) :
    readBlock (writeBlock m a b) a = b := by
  apply Vector.ext
  intro i hi
  have h16 : i < b.toList.length := by simpa using hi
  rw [readBlock, Vector.getElem_ofFn, writeBlock, readByte_writeList_inside hm (by simpa using h) h16]
  simp

theorem readBlock_congr {m m' : Memory} {a : Nat} (h : ∀ i < 16, readByte m (a + i) = readByte m' (a + i)) :
    readBlock m a = readBlock m' a := by
  apply Vector.ext
  intro i hi
  simp only [readBlock, Vector.getElem_ofFn]
  exact h i hi

theorem readBlock_writeBlock_disjoint {m : Memory} {a x : Nat} {b : Block} (h : x + 16 ≤ a ∨ a + 16 ≤ x) :
    readBlock (writeBlock m a b) x = readBlock m x :=
  readBlock_congr fun i hi => readByte_writeBlock_outside (by omega)

@[simp] theorem readList_length (m : Memory) (a n : Nat) : (readList m a n).length = n := by
  simp [readList]

theorem rangeAll_iff {f : Nat → Bool} {a l : Nat} : rangeAll f a l = true ↔ ∀ i < l, f (a + i) = true := by
  simp [rangeAll]

end Sys2Proof.Machine
end

