-- ==== Sys2Proof/Laws/Operands.lean ====
section
/-!
SUPPORT. The laws of the operand forms: byte strings and their XOR, the big-endian counter, the packing of
register words and the offsets of the window.
-/

namespace Sys2Proof.Machine

@[simp] theorem getElem_xorBytes {n : Nat} (a b : Bytes n) (i : Nat) (h : i < n) :
    (xorBytes a b)[i] = a[i] ^^^ b[i] := by
  simp [xorBytes]

theorem byteAt_eq {n : Nat} (b : Bytes n) {i : Nat} (h : i < n) : byteAt b i = b[i] := by
  simp [byteAt, h]

@[simp] theorem xorBytes_cancel {n : Nat} (a b : Bytes n) : xorBytes (xorBytes a b) b = a := by
  apply Vector.ext
  intro i hi
  simp

theorem xorBytes_comm {n : Nat} (a b : Bytes n) : xorBytes a b = xorBytes b a := by
  apply Vector.ext
  intro i hi
  simp [BitVec.xor_comm]

/-! The big-endian counter -/

theorem beList_lt (l : List Byte) : beList l < 256 ^ l.length := by
  induction l with
  | nil => decide
  | cons b r ih =>
    have hb : b.toNat ≤ 255 := by omega
    have := Nat.mul_le_mul_right (256 ^ r.length) hb
    rw [beList, List.length_cons, Nat.pow_succ]
    omega

theorem beNat_lt {n : Nat} (b : Bytes n) : beNat b < 256 ^ n := by
  have := beList_lt b.toList
  rwa [Vector.length_toList] at this

theorem beList_ofFn (n v : Nat) :
    beList (List.ofFn fun i : Fin n => BitVec.ofNat 8 (v / 256 ^ (n - 1 - i.val))) = v % 256 ^ n := by
  induction n with
  | zero => simp [beList, Nat.mod_one]
  | succ n ih =>
    have htail : (fun i : Fin n => BitVec.ofNat 8 (v / 256 ^ (n + 1 - 1 - (i.succ).val))) =
        fun i : Fin n => BitVec.ofNat 8 (v / 256 ^ (n - 1 - i.val)) := by
      funext i
      rw [Fin.val_succ, show n + 1 - 1 - (i.val + 1) = n - 1 - i.val by omega]
    rw [List.ofFn_succ, htail, beList, ih, List.length_ofFn, BitVec.toNat_ofNat, Fin.val_zero, Nat.sub_zero,
      Nat.add_sub_cancel, Nat.pow_succ 256, show (2 : Nat) ^ 8 = 256 by norm_num, Nat.mod_mul,
      Nat.mul_comm (256 ^ n)]
    exact Nat.add_comm _ _

/-- BE of BEbytes_n is the number modulo 256^n. -/
theorem beNat_beBytes (n v : Nat) : beNat (beBytes n v) = v % 256 ^ n := by
  rw [beNat, beBytes, Vector.toList_ofFn, beList_ofFn]

theorem beList_inj {l l' : List Byte} (hl : l.length = l'.length) (h : beList l = beList l') : l = l' := by
  induction l generalizing l' with
  | nil => exact (List.length_eq_zero_iff.1 hl.symm).symm
  | cons b r ih =>
    cases l' with
    | nil => simp at hl
    | cons b' r' =>
      simp only [List.length_cons, Nat.add_right_cancel_iff] at hl
      have h1 := beList_lt r
      have h2 := beList_lt r'
      rw [beList, beList, hl] at h
      rw [hl] at h1
      have hq : b.toNat = b'.toNat := by
        have e1 : (b.toNat * 256 ^ r'.length + beList r) / 256 ^ r'.length = b.toNat := by
          rw [Nat.mul_comm, Nat.mul_add_div (by positivity), Nat.div_eq_of_lt h1, Nat.add_zero]
        have e2 : (b'.toNat * 256 ^ r'.length + beList r') / 256 ^ r'.length = b'.toNat := by
          rw [Nat.mul_comm, Nat.mul_add_div (by positivity), Nat.div_eq_of_lt h2, Nat.add_zero]
        rw [← e1, ← e2, h]
      rw [hq] at h
      rw [BitVec.eq_of_toNat_eq hq, ih hl (by omega)]

theorem beNat_inj {n : Nat} {a b : Bytes n} (h : beNat a = beNat b) : a = b := by
  have := beList_inj (by simp) h
  exact Vector.toList_inj.1 this

/-- BEbytes_n of BE is the byte string. -/
theorem beBytes_beNat {n : Nat} (b : Bytes n) : beBytes n (beNat b) = b :=
  beNat_inj (by rw [beNat_beBytes, Nat.mod_eq_of_lt (beNat_lt b)])

/-- The counter's value goes up by one modulo 2^128. -/
theorem beNat_inc128 (b : Block) : beNat (inc128 b) = (beNat b + 1) % 2 ^ 128 := by
  rw [inc128, beNat_beBytes]
  norm_num

theorem inc128_beBytes (v : Nat) : inc128 (beBytes 16 v) = beBytes 16 (v + 1) := by
  apply beNat_inj
  rw [beNat_inc128, beNat_beBytes, beNat_beBytes]
  norm_num

/-! Register words -/

/-- Byte 4w+j of a register whose word `w` was written. -/
theorem setWord_lane {n : Nat} (r : Bytes n) (w : Nat) (v : Word) {j : Nat} (hj : j < 4) (h : 4 * w + 3 < n) :
    byteAt (setWord r w v) (4 * w + j) = laneOf v j := by
  rw [byteAt_eq _ (by omega), setWord, Vector.getElem_ofFn]
  simp only
  rw [if_pos (by omega), show (4 * w + j) % 4 = j by omega]

/-- A register word as a number. -/
theorem getWord_toNat {n : Nat} (r : Bytes n) (w : Nat) :
    (getWord r w).toNat = (byteAt r (4 * w)).toNat + (byteAt r (4 * w + 1)).toNat * 2 ^ 8 +
      (byteAt r (4 * w + 2)).toNat * 2 ^ 16 + (byteAt r (4 * w + 3)).toNat * 2 ^ 24 := by
  have h0 := (byteAt r (4 * w)).isLt
  have h1 := (byteAt r (4 * w + 1)).isLt
  have h2 := (byteAt r (4 * w + 2)).isLt
  simp only [getWord, BitVec.toNat_append]
  rw [← Nat.shiftLeft_add_eq_or_of_lt h0, ← Nat.shiftLeft_add_eq_or_of_lt h1, ← Nat.shiftLeft_add_eq_or_of_lt h2]
  simp only [Nat.shiftLeft_eq]
  omega

theorem getWord_setWord_same {n : Nat} (r : Bytes n) {w : Nat} (v : Word) (h : 4 * w + 3 < n) :
    getWord (setWord r w v) w = v := by
  have e : ∀ j, j < 4 → byteAt (setWord r w v) (4 * w + j) = laneOf v j := fun j hj => setWord_lane r w v hj h
  rw [getWord, e 3 (by omega), e 2 (by omega), e 1 (by omega)]
  have e0 := e 0 (by omega)
  rw [Nat.add_zero] at e0
  rw [e0]
  simp only [laneOf]
  ext i hi
  simp only [BitVec.getElem_append, BitVec.getElem_extractLsb']
  split_ifs <;> (rw [BitVec.getLsbD_eq_getElem (by omega)]; congr 1; omega)

theorem setWord_other {n : Nat} (r : Bytes n) {w i : Nat} (v : Word) (h : i / 4 ≠ w) :
    byteAt (setWord r w v) i = byteAt r i := by
  by_cases hi : i < n
  · rw [byteAt_eq _ hi, byteAt_eq _ hi, setWord, Vector.getElem_ofFn]
    simp [h]
  · simp [byteAt, hi]

theorem getWord_setWord_other {n : Nat} (r : Bytes n) {w w' : Nat} (v : Word) (h : w' ≠ w) :
    getWord (setWord r w v) w' = getWord r w' := by
  have e : ∀ j, j < 4 → byteAt (setWord r w v) (4 * w' + j) = byteAt r (4 * w' + j) := fun j hj =>
    setWord_other r v (by omega)
  have e0 := e 0 (by omega)
  rw [Nat.add_zero] at e0
  rw [getWord, getWord, e 3 (by omega), e 2 (by omega), e 1 (by omega), e0]

/-- Every register is found at its own offset. -/
theorem regAt_offsetOf (r : Reg) : regAt (offsetOf r) = some r := by
  cases r with
  | key w => revert w; decide
  | iv w => revert w; decide
  | ctr w => revert w; decide
  | ecount w => revert w; decide
  | reserved k => revert k; decide
  | num | src | dst | len | cmd | status | valid => decide

theorem regAt_none_iff : ∀ off : BitVec 8, regAt off = none ↔ off.toNat % 4 ≠ 0 := by
  decide

/-- Every aligned offset is the offset of the register found there. -/
theorem offsetOf_regAt {off : BitVec 8} {r : Reg} (h : regAt off = some r) : offsetOf r = off := by
  have key : ∀ off : BitVec 8, (match regAt off with | some r => decide (offsetOf r = off) | none => true) = true := by
    decide
  have := key off
  rw [h] at this
  simpa using this

/-! VALID and STATUS -/

theorem statusOf_ok : statusOf .ok = 0 := by decide

theorem setValidBit_bit (v : Word) (k : Nat) {n : Nat} (hn : n < 32) :
    (setValidBit v k).getLsbD n = (v.getLsbD n || decide (n = k)) := by
  rw [setValidBit, BitVec.getLsbD_or, BitVec.getLsbD_ofNat, Nat.testBit_two_pow]
  simp [hn, eq_comm]

theorem setEcV_ecV (v : Word) : ecV (setEcV v) = 0xF := by
  simp only [ecV, setEcV]
  ext i hi
  interval_cases i <;> simp

/-- A regeneration touches no valid bit outside ECV. -/
theorem keyV_setEcV (v : Word) : keyV (setEcV v) = keyV v := by
  simp only [keyV, setEcV]
  ext i hi
  interval_cases i <;> simp

theorem ctrV_setEcV (v : Word) : ctrV (setEcV v) = ctrV v := by
  simp only [ctrV, setEcV]
  ext i hi
  interval_cases i <;> simp

end Sys2Proof.Machine
end

