-- ==== Sys2Proof/Laws/Ige.lean ====
section
/-!
SUPPORT. What the loops of IGE_ENC and IGE_DEC do to memory, and the laws of the IGE transformation on
lists of blocks.
-/

namespace Sys2Proof.Machine

/-! The transformation on lists of blocks -/

@[simp] theorem length_igeEncrypt (f : Block → Block) (c p : Block) (xs : List Block) :
    (igeEncrypt f c p xs).length = xs.length := by
  induction xs generalizing c p with
  | nil => rfl
  | cons x xs ih => simp [igeEncrypt, ih]

@[simp] theorem length_igeDecrypt (f : Block → Block) (c p : Block) (ys : List Block) :
    (igeDecrypt f c p ys).length = ys.length := by
  induction ys generalizing c p with
  | nil => rfl
  | cons y ys ih => simp [igeDecrypt, ih]

/-- Decryption undoes encryption with the same key and chaining pair. -/
theorem igeDecrypt_igeEncrypt (k : Equiv.Perm Block) (c p : Block) (xs : List Block) :
    igeDecrypt k.symm c p (igeEncrypt k c p xs) = xs := by
  induction xs generalizing c p with
  | nil => rfl
  | cons x xs ih => simp [igeEncrypt, igeDecrypt, ih]

/-- Encryption undoes decryption with the same key and chaining pair. -/
theorem igeEncrypt_igeDecrypt (k : Equiv.Perm Block) (c p : Block) (ys : List Block) :
    igeEncrypt k c p (igeDecrypt k.symm c p ys) = ys := by
  induction ys generalizing c p with
  | nil => rfl
  | cons y ys ih => simp [igeEncrypt, igeDecrypt, ih]

@[simp] theorem length_readBlocks (m : Memory) (a n : Nat) : (readBlocks m a n).length = n := by
  induction n generalizing a with
  | zero => rfl
  | succ n ih => simp [readBlocks, ih]

theorem readBlocks_congr {m m' : Memory} {a n : Nat}
    (h : ∀ x, a ≤ x → x < a + 16 * n → readByte m x = readByte m' x) : readBlocks m a n = readBlocks m' a n := by
  induction n generalizing a with
  | zero => rfl
  | succ n ih =>
    rw [readBlocks, readBlocks, readBlock_congr (m' := m') fun i hi => h _ (by omega) (by omega),
      ih fun x hx hx' => h x (by omega) (by omega)]

theorem getElem_readBlock (m : Memory) (a : Nat) {i : Nat} (h : i < 16) : (readBlock m a)[i] = readByte m (a + i) := by
  rw [readBlock, Vector.getElem_ofFn]

/-- Two buffers hold the same blocks exactly when they hold the same bytes. -/
theorem readBlocks_eq_iff {m m' : Memory} {a a' n : Nat} :
    readBlocks m a n = readBlocks m' a' n ↔ ∀ q < 16 * n, readByte m (a + q) = readByte m' (a' + q) := by
  induction n generalizing a a' with
  | zero => simp [readBlocks]
  | succ n ih =>
    rw [readBlocks, readBlocks, List.cons.injEq, ih]
    constructor
    · rintro ⟨h1, h2⟩ q hq
      by_cases h : q < 16
      · rw [← getElem_readBlock m a h, ← getElem_readBlock m' a' h, h1]
      · have := h2 (q - 16) (by omega)
        rwa [show a + 16 + (q - 16) = a + q by omega, show a' + 16 + (q - 16) = a' + q by omega] at this
    · intro h
      constructor
      · apply Vector.ext
        intro i hi
        rw [getElem_readBlock m a hi, getElem_readBlock m' a' hi]
        exact h i (by omega)
      · intro q hq
        have := h (16 + q) (by omega)
        rwa [show a + (16 + q) = a + 16 + q by omega, show a' + (16 + q) = a' + 16 + q by omega] at this

/-- Block `i` of a buffer. -/
theorem getElem_readBlocks (m : Memory) (a : Nat) {n i : Nat} (hi : i < n) :
    (readBlocks m a n)[i]? = some (readBlock m (a + 16 * i)) := by
  induction n generalizing a i with
  | zero => omega
  | succ n ih =>
    cases i with
    | zero => rfl
    | succ i =>
      rw [readBlocks, List.getElem?_cons_succ, ih (a + 16) (by omega), show a + 16 + 16 * i = a + 16 * (i + 1) by omega]

/-- Output block i+1 of an encryption, from the blocks before it. -/
theorem igeEncrypt_succ (f : Block → Block) (c p : Block) (xs : List Block) {i : Nat} {x x' y : Block}
    (h1 : xs[i]? = some x') (h2 : xs[i + 1]? = some x) (h3 : (igeEncrypt f c p xs)[i]? = some y) :
    (igeEncrypt f c p xs)[i + 1]? = some (xorBytes (f (xorBytes x y)) x') := by
  induction xs generalizing c p i with
  | nil => simp at h1
  | cons z zs ih =>
    cases i with
    | zero =>
      cases zs with
      | nil => simp at h2
      | cons z2 zs =>
        simp only [List.getElem?_cons_zero, List.getElem?_cons_succ, Option.some.injEq] at h1 h2
        simp only [igeEncrypt, List.getElem?_cons_zero, List.getElem?_cons_succ, Option.some.injEq] at h3 ⊢
        rw [h3, h1, h2]
    | succ i =>
      simp only [List.getElem?_cons_succ] at h1 h2
      simp only [igeEncrypt, List.getElem?_cons_succ] at h3 ⊢
      exact ih _ _ h1 h2 h3

/-- Output block i+1 of a decryption, from the blocks before it. -/
theorem igeDecrypt_succ (f : Block → Block) (c p : Block) (ys : List Block) {i : Nat} {y y' x : Block}
    (h1 : ys[i]? = some y') (h2 : ys[i + 1]? = some y) (h3 : (igeDecrypt f c p ys)[i]? = some x) :
    (igeDecrypt f c p ys)[i + 1]? = some (xorBytes (f (xorBytes y x)) y') := by
  induction ys generalizing c p i with
  | nil => simp at h1
  | cons z zs ih =>
    cases i with
    | zero =>
      cases zs with
      | nil => simp at h2
      | cons z2 zs =>
        simp only [List.getElem?_cons_zero, List.getElem?_cons_succ, Option.some.injEq] at h1 h2
        simp only [igeDecrypt, List.getElem?_cons_zero, List.getElem?_cons_succ, Option.some.injEq] at h3 ⊢
        rw [h3, h1, h2]
    | succ i =>
      simp only [List.getElem?_cons_succ] at h1 h2
      simp only [igeDecrypt, List.getElem?_cons_succ] at h3 ⊢
      exact ih _ _ h1 h2 h3

/-! The loops -/

/-- The two admitted forms of a pair of buffers: in place, or disjoint (spec/20_memory.md R66). -/
abbrev Apart (src dst l : Nat) : Prop := src = dst ∨ src + l ≤ dst ∨ dst + l ≤ src

theorem readByte_igeEncLoop_outside {f : Block → Block} {n src dst : Nat} {c p : Block} {m : Memory} {x : Nat}
    (h : x < dst ∨ dst + 16 * n ≤ x) : readByte (igeEncLoop f n src dst c p m) x = readByte m x := by
  induction n generalizing src dst c p m with
  | zero => rfl
  | succ n ih => rw [igeEncLoop, ih (by omega), readByte_writeBlock_outside (by omega)]

theorem readByte_igeDecLoop_outside {f : Block → Block} {n src dst : Nat} {c p : Block} {m : Memory} {x : Nat}
    (h : x < dst ∨ dst + 16 * n ≤ x) : readByte (igeDecLoop f n src dst c p m) x = readByte m x := by
  induction n generalizing src dst c p m with
  | zero => rfl
  | succ n ih => rw [igeDecLoop, ih (by omega), readByte_writeBlock_outside (by omega)]

theorem wf_igeEncLoop {f : Block → Block} {n src dst : Nat} {c p : Block} {m : Memory} (hm : m.wf = true)
    (h : dst + 16 * n ≤ 4294967296) : Memory.wf (igeEncLoop f n src dst c p m) = true := by
  induction n generalizing src dst c p m with
  | zero => exact hm
  | succ n ih => exact ih (wf_writeBlock hm (by omega)) (by omega)

theorem wf_igeDecLoop {f : Block → Block} {n src dst : Nat} {c p : Block} {m : Memory} (hm : m.wf = true)
    (h : dst + 16 * n ≤ 4294967296) : Memory.wf (igeDecLoop f n src dst c p m) = true := by
  induction n generalizing src dst c p m with
  | zero => exact hm
  | succ n ih => exact ih (wf_writeBlock hm (by omega)) (by omega)

/-- IGE_ENC leaves in the output buffer the encryption of the input buffer, in place or not. -/
theorem readBlocks_igeEncLoop {f : Block → Block} {n src dst : Nat} {c p : Block} {m : Memory} (hm : m.wf = true)
    (hd : dst + 16 * n ≤ 4294967296) (ha : Apart src dst (16 * n)) :
    readBlocks (igeEncLoop f n src dst c p m) dst n = igeEncrypt f c p (readBlocks m src n) := by
  induction n generalizing src dst c p m with
  | zero => rfl
  | succ n ih =>
    have hfirst : ∀ b c' p', readBlock (igeEncLoop f n (src + 16) (dst + 16) c' p' (writeBlock m dst b)) dst = b :=
      fun b c' p' => by
        rw [readBlock_congr fun i hi => readByte_igeEncLoop_outside (by omega), readBlock_writeBlock_same hm (by omega)]
    have hrest : ∀ b, readBlocks (writeBlock m dst b) (src + 16) n = readBlocks m (src + 16) n := fun b =>
      readBlocks_congr fun x hx hx' => readByte_writeBlock_outside (by omega)
    rw [igeEncLoop, readBlocks, readBlocks, igeEncrypt, hfirst, ih (wf_writeBlock hm (by omega)) (by omega) (by omega), hrest]

/-- IGE_DEC leaves in the output buffer the decryption of the input buffer, in place or not. -/
theorem readBlocks_igeDecLoop {f : Block → Block} {n src dst : Nat} {c p : Block} {m : Memory} (hm : m.wf = true)
    (hd : dst + 16 * n ≤ 4294967296) (ha : Apart src dst (16 * n)) :
    readBlocks (igeDecLoop f n src dst c p m) dst n = igeDecrypt f c p (readBlocks m src n) := by
  induction n generalizing src dst c p m with
  | zero => rfl
  | succ n ih =>
    have hfirst : ∀ b c' p', readBlock (igeDecLoop f n (src + 16) (dst + 16) c' p' (writeBlock m dst b)) dst = b :=
      fun b c' p' => by
        rw [readBlock_congr fun i hi => readByte_igeDecLoop_outside (by omega), readBlock_writeBlock_same hm (by omega)]
    have hrest : ∀ b, readBlocks (writeBlock m dst b) (src + 16) n = readBlocks m (src + 16) n := fun b =>
      readBlocks_congr fun x hx hx' => readByte_writeBlock_outside (by omega)
    rw [igeDecLoop, readBlocks, readBlocks, igeDecrypt, hfirst, ih (wf_writeBlock hm (by omega)) (by omega) (by omega), hrest]

/-- The loop of IGE_ENC over `j + k` blocks is the loop over `j` and then over `k` from the pair it reached. -/
theorem igeEncLoop_add {f : Block → Block} {j k src dst : Nat} {c p : Block} {m : Memory} (hj : 0 < j)
    (hm : m.wf = true) (hd : dst + 16 * (j + k) ≤ 4294967296) (ha : Apart src dst (16 * (j + k))) :
    igeEncLoop f (j + k) src dst c p m =
      igeEncLoop f k (src + 16 * j) (dst + 16 * j)
        (readBlock (igeEncLoop f j src dst c p m) (dst + 16 * (j - 1))) (readBlock m (src + 16 * (j - 1)))
        (igeEncLoop f j src dst c p m) := by
  induction j generalizing src dst c p m with
  | zero => omega
  | succ j ih =>
    rw [Nat.succ_add, igeEncLoop]
    by_cases h0 : j = 0
    · subst h0
      have hy : ∀ y, readBlock (writeBlock m dst y) dst = y := fun y => readBlock_writeBlock_same hm (by omega)
      simp only [igeEncLoop, hy, Nat.zero_add, Nat.mul_one, Nat.sub_self, Nat.mul_zero, Nat.add_zero]
    · rw [ih (by omega) (wf_writeBlock hm (by omega)) (by omega) (by omega), igeEncLoop,
        readBlock_writeBlock_disjoint (by omega), show src + 16 + 16 * j = src + 16 * (j + 1) by omega,
        show dst + 16 + 16 * j = dst + 16 * (j + 1) by omega,
        show src + 16 + 16 * (j - 1) = src + 16 * (j + 1 - 1) by omega,
        show dst + 16 + 16 * (j - 1) = dst + 16 * (j + 1 - 1) by omega]

/-- The loop of IGE_DEC over `j + k` blocks is the loop over `j` and then over `k` from the pair it reached. -/
theorem igeDecLoop_add {f : Block → Block} {j k src dst : Nat} {c p : Block} {m : Memory} (hj : 0 < j)
    (hm : m.wf = true) (hd : dst + 16 * (j + k) ≤ 4294967296) (ha : Apart src dst (16 * (j + k))) :
    igeDecLoop f (j + k) src dst c p m =
      igeDecLoop f k (src + 16 * j) (dst + 16 * j)
        (readBlock m (src + 16 * (j - 1))) (readBlock (igeDecLoop f j src dst c p m) (dst + 16 * (j - 1)))
        (igeDecLoop f j src dst c p m) := by
  induction j generalizing src dst c p m with
  | zero => omega
  | succ j ih =>
    rw [Nat.succ_add, igeDecLoop]
    by_cases h0 : j = 0
    · subst h0
      have hy : ∀ y, readBlock (writeBlock m dst y) dst = y := fun y => readBlock_writeBlock_same hm (by omega)
      simp only [igeDecLoop, hy, Nat.zero_add, Nat.mul_one, Nat.sub_self, Nat.mul_zero, Nat.add_zero]
    · rw [ih (by omega) (wf_writeBlock hm (by omega)) (by omega) (by omega), igeDecLoop,
        readBlock_writeBlock_disjoint (by omega), show src + 16 + 16 * j = src + 16 * (j + 1) by omega,
        show dst + 16 + 16 * j = dst + 16 * (j + 1) by omega,
        show src + 16 + 16 * (j - 1) = src + 16 * (j + 1 - 1) by omega,
        show dst + 16 + 16 * (j - 1) = dst + 16 * (j + 1 - 1) by omega]

theorem cipherSeed_append (a b : Block) : cipherSeed (a ++ b) = a := by
  apply Vector.ext
  intro i hi
  rw [cipherSeed, Vector.getElem_ofFn, byteAt_eq _ (by omega)]
  exact Vector.getElem_append_left hi

theorem plainSeed_append (a b : Block) : plainSeed (a ++ b) = b := by
  apply Vector.ext
  intro i hi
  rw [plainSeed, Vector.getElem_ofFn, byteAt_eq _ (by omega)]
  have h := Vector.getElem_append_right (xs := a) (ys := b) (i := 16 + i) (by omega) (by omega)
  simp only [Nat.add_sub_cancel_left] at h
  exact h

end Sys2Proof.Machine
end

