-- ==== Sys2Proof/Laws/State.lean ====
section
/-!
SUPPORT. One lemma per field per update of the state and of an engine, so that no proof unfolds a record
update.
-/

namespace Sys2Proof.Machine

@[simp] theorem setEngine_engines (s : State) (k : Nat) (e : Engine) :
    (setEngine s k e).engines = s.engines.set k e := rfl
@[simp] theorem setEngine_mem (s : State) (k : Nat) (e : Engine) : (setEngine s k e).mem = s.mem := rfl
@[simp] theorem setEngine_pending (s : State) (k : Nat) (e : Engine) : (setEngine s k e).pending = s.pending := rfl
@[simp] theorem setEngine_pos (s : State) (k : Nat) (e : Engine) : (setEngine s k e).pos = s.pos := rfl
@[simp] theorem setEngine_observed (s : State) (k : Nat) (e : Engine) :
    (setEngine s k e).observed = s.observed := rfl
@[simp] theorem setEngine_target (s : State) (k : Nat) (e : Engine) : (setEngine s k e).target = s.target := rfl
@[simp] theorem setEngine_platform (s : State) (k : Nat) (e : Engine) :
    (setEngine s k e).platform = s.platform := rfl

@[simp] theorem setMem_engines (s : State) (m : Memory) : (setMem s m).engines = s.engines := rfl
@[simp] theorem setMem_mem (s : State) (m : Memory) : (setMem s m).mem = m := rfl
@[simp] theorem setMem_pending (s : State) (m : Memory) : (setMem s m).pending = s.pending := rfl
@[simp] theorem setMem_pos (s : State) (m : Memory) : (setMem s m).pos = s.pos := rfl
@[simp] theorem setMem_observed (s : State) (m : Memory) : (setMem s m).observed = s.observed := rfl
@[simp] theorem setMem_target (s : State) (m : Memory) : (setMem s m).target = s.target := rfl
@[simp] theorem setMem_platform (s : State) (m : Memory) : (setMem s m).platform = s.platform := rfl

@[simp] theorem selectEngine_engines (s : State) (k : Nat) : (selectEngine s k).engines = s.engines := rfl
@[simp] theorem selectEngine_mem (s : State) (k : Nat) : (selectEngine s k).mem = s.mem := rfl
@[simp] theorem selectEngine_pending (s : State) (k : Nat) : (selectEngine s k).pending = s.pending := rfl
@[simp] theorem selectEngine_pos (s : State) (k : Nat) : (selectEngine s k).pos = s.pos := rfl
@[simp] theorem selectEngine_observed (s : State) (k : Nat) : (selectEngine s k).observed = s.observed := rfl
@[simp] theorem selectEngine_target (s : State) (k : Nat) : (selectEngine s k).target = k := rfl
@[simp] theorem selectEngine_platform (s : State) (k : Nat) : (selectEngine s k).platform = s.platform := rfl

@[simp] theorem observe_engines (s : State) (o : Observation) : (observe s o).engines = s.engines := rfl
@[simp] theorem observe_mem (s : State) (o : Observation) : (observe s o).mem = s.mem := rfl
@[simp] theorem observe_pending (s : State) (o : Observation) : (observe s o).pending = s.pending := rfl
@[simp] theorem observe_pos (s : State) (o : Observation) : (observe s o).pos = s.pos := rfl
@[simp] theorem observe_observed (s : State) (o : Observation) : (observe s o).observed = s.observed ++ [o] := rfl
@[simp] theorem observe_target (s : State) (o : Observation) : (observe s o).target = s.target := rfl
@[simp] theorem observe_platform (s : State) (o : Observation) : (observe s o).platform = s.platform := rfl

@[simp] theorem advance_engines (s : State) (r : List HostAction) : (advance s r).engines = s.engines := rfl
@[simp] theorem advance_mem (s : State) (r : List HostAction) : (advance s r).mem = s.mem := rfl
@[simp] theorem advance_pending (s : State) (r : List HostAction) : (advance s r).pending = r := rfl
@[simp] theorem advance_pos (s : State) (r : List HostAction) : (advance s r).pos = s.pos + 1 := rfl
@[simp] theorem advance_observed (s : State) (r : List HostAction) : (advance s r).observed = s.observed := rfl
@[simp] theorem advance_target (s : State) (r : List HostAction) : (advance s r).target = s.target := rfl
@[simp] theorem advance_platform (s : State) (r : List HostAction) : (advance s r).platform = s.platform := rfl

@[simp] theorem setErr_key (e : Engine) (c : ErrCode) : (setErr e c).key = e.key := rfl
@[simp] theorem setErr_iv (e : Engine) (c : ErrCode) : (setErr e c).iv = e.iv := rfl
@[simp] theorem setErr_ctr (e : Engine) (c : ErrCode) : (setErr e c).ctr = e.ctr := rfl
@[simp] theorem setErr_ecount (e : Engine) (c : ErrCode) : (setErr e c).ecount = e.ecount := rfl
@[simp] theorem setErr_num (e : Engine) (c : ErrCode) : (setErr e c).num = e.num := rfl
@[simp] theorem setErr_src (e : Engine) (c : ErrCode) : (setErr e c).src = e.src := rfl
@[simp] theorem setErr_dst (e : Engine) (c : ErrCode) : (setErr e c).dst = e.dst := rfl
@[simp] theorem setErr_len (e : Engine) (c : ErrCode) : (setErr e c).len = e.len := rfl
@[simp] theorem setErr_status (e : Engine) (c : ErrCode) : (setErr e c).status = statusOf c := rfl
@[simp] theorem setErr_valid (e : Engine) (c : ErrCode) : (setErr e c).valid = e.valid := rfl

@[simp] theorem setNum_key (e : Engine) (n : Nat) : (setNum e n).key = e.key := rfl
@[simp] theorem setNum_iv (e : Engine) (n : Nat) : (setNum e n).iv = e.iv := rfl
@[simp] theorem setNum_ctr (e : Engine) (n : Nat) : (setNum e n).ctr = e.ctr := rfl
@[simp] theorem setNum_ecount (e : Engine) (n : Nat) : (setNum e n).ecount = e.ecount := rfl
@[simp] theorem setNum_num (e : Engine) (n : Nat) : (setNum e n).num = BitVec.ofNat 32 n := rfl
@[simp] theorem setNum_src (e : Engine) (n : Nat) : (setNum e n).src = e.src := rfl
@[simp] theorem setNum_dst (e : Engine) (n : Nat) : (setNum e n).dst = e.dst := rfl
@[simp] theorem setNum_len (e : Engine) (n : Nat) : (setNum e n).len = e.len := rfl
@[simp] theorem setNum_status (e : Engine) (n : Nat) : (setNum e n).status = e.status := rfl
@[simp] theorem setNum_valid (e : Engine) (n : Nat) : (setNum e n).valid = e.valid := rfl

@[simp] theorem regenerate_key (f : Block → Block) (e : Engine) : (regenerate f e).key = e.key := rfl
@[simp] theorem regenerate_iv (f : Block → Block) (e : Engine) : (regenerate f e).iv = e.iv := rfl
@[simp] theorem regenerate_ctr (f : Block → Block) (e : Engine) : (regenerate f e).ctr = inc128 e.ctr := rfl
@[simp] theorem regenerate_ecount (f : Block → Block) (e : Engine) : (regenerate f e).ecount = f e.ctr := rfl
@[simp] theorem regenerate_num (f : Block → Block) (e : Engine) : (regenerate f e).num = e.num := rfl
@[simp] theorem regenerate_src (f : Block → Block) (e : Engine) : (regenerate f e).src = e.src := rfl
@[simp] theorem regenerate_dst (f : Block → Block) (e : Engine) : (regenerate f e).dst = e.dst := rfl
@[simp] theorem regenerate_len (f : Block → Block) (e : Engine) : (regenerate f e).len = e.len := rfl
@[simp] theorem regenerate_status (f : Block → Block) (e : Engine) : (regenerate f e).status = e.status := rfl
@[simp] theorem regenerate_valid (f : Block → Block) (e : Engine) : (regenerate f e).valid = setEcV e.valid := rfl

@[simp] theorem setEngine_setEngine (s : State) (k : Nat) (e f : Engine) :
    setEngine (setEngine s k e) k f = setEngine s k f := by
  simp [setEngine]

theorem setEngine_setMem (s : State) (k : Nat) (e : Engine) (m : Memory) :
    setEngine (setMem s m) k e = setMem (setEngine s k e) m := rfl

theorem getElem_set_self {l : List Engine} {k : Nat} {e : Engine} (f : Engine) (h : l[k]? = some e) :
    (l.set k f)[k]? = some f := by
  have hk : k < l.length := by
    by_contra h'
    rw [List.getElem?_eq_none (by omega)] at h
    cases h
  simp [hk]

/-! Register writes -/

@[simp] theorem writeReg_status (e : Engine) (v : Word) (r : Reg) : (writeReg e v r).status = e.status := by
  cases r <;> simp only [writeReg]

theorem writeReg_key (e : Engine) (v : Word) {r : Reg} (h : ∀ w, r ≠ .key w) : (writeReg e v r).key = e.key := by
  cases r with
  | key w => exact absurd rfl (h w)
  | _ => simp only [writeReg]

/-- A register write sets VALID bits and clears none. -/
theorem writeReg_valid_mono (e : Engine) (v : Word) (r : Reg) {n : Nat} (h : e.valid.getLsbD n = true) :
    (writeReg e v r).valid.getLsbD n = true := by
  cases r <;> simp [writeReg, setValidBit, h]

end Sys2Proof.Machine
end

