-- ==== Sys2Proof/Laws/Ctr.lean ====
section
/-!
SUPPORT. What the loop of CTR_APPLY does to memory and to the stream state, and the laws of the keystream.
-/

namespace Sys2Proof.Machine

/-! The fields the loop leaves alone -/

/-- The registers CTR_APPLY never writes are the same in two engines. -/
structure SameOperands (e e' : Engine) : Prop where
  key : e'.key = e.key
  iv : e'.iv = e.iv
  num : e'.num = e.num
  src : e'.src = e.src
  dst : e'.dst = e.dst
  len : e'.len = e.len
  status : e'.status = e.status

theorem sameOperands_refill (f : Block → Block) (n : Nat) (e : Engine) : SameOperands e (refill f n e) := by
  by_cases h : n = 0
  · rw [refill, if_pos h]
    constructor <;> simp
  · rw [refill, if_neg h]
    constructor <;> rfl

theorem sameOperands_ctrLoop (f : Block → Block) (k src dst n : Nat) (e : Engine) (m : Memory) :
    SameOperands e (ctrLoop f k src dst n e m).2.1 := by
  induction k generalizing src dst n e m with
  | zero => exact ⟨rfl, rfl, rfl, rfl, rfl, rfl, rfl⟩
  | succ k ih =>
    have h1 := sameOperands_refill f n e
    have h2 := ih (src + 1) (dst + 1) ((n + 1) % 16) (refill f n e)
      (writeByte m dst (readByte m src ^^^ byteAt (refill f n e).ecount n))
    exact ⟨h2.key.trans h1.key, h2.iv.trans h1.iv, h2.num.trans h1.num, h2.src.trans h1.src, h2.dst.trans h1.dst,
      h2.len.trans h1.len, h2.status.trans h1.status⟩

/-! Memory -/

theorem readByte_ctrLoop_outside {f : Block → Block} {k src dst n : Nat} {e : Engine} {m : Memory} {x : Nat}
    (h : x < dst ∨ dst + k ≤ x) : readByte (ctrLoop f k src dst n e m).2.2 x = readByte m x := by
  induction k generalizing src dst n e m with
  | zero => rfl
  | succ k ih => rw [ctrLoop, ih (by omega), readByte_writeByte_other (by omega)]

theorem wf_ctrLoop {f : Block → Block} {k src dst n : Nat} {e : Engine} {m : Memory} (hm : m.wf = true)
    (h : dst + k ≤ 4294967296) : Memory.wf (ctrLoop f k src dst n e m).2.2 = true := by
  induction k generalizing src dst n e m with
  | zero => exact hm
  | succ k ih => exact ih (wf_writeByte hm (by omega)) (by omega)

/-! The keystream -/

theorem keystreamBlock_eq (f : Block → Block) (e : Engine) : keystreamBlock f (beNat e.ctr) 0 = f e.ctr := by
  have h := beNat_lt e.ctr
  rw [keystreamBlock, Nat.add_zero, Nat.mod_eq_of_lt (by norm_num at h ⊢; exact h), beBytes_beNat]

theorem keystreamBlock_succ (f : Block → Block) (t j : Nat) :
    keystreamBlock f ((t + 1) % 2 ^ 128) j = keystreamBlock f t (j + 1) := by
  rw [keystreamBlock, keystreamBlock, Nat.mod_add_mod, Nat.add_assoc, Nat.add_comm 1 j]

/-- The keystream's first byte is the one the loop uses. -/
theorem keystreamByte_zero (f : Block → Block) {n : Nat} (e : Engine) (h : n < 16) :
    keystreamByte f (beNat e.ctr) n e.ecount 0 = byteAt (refill f n e).ecount n := by
  rw [keystreamByte, refill]
  split
  · subst n
    rw [show (0 + 0) / 16 = 0 from rfl, keystreamBlock_eq]
    rfl
  · simp [h]

/-- The rest of the keystream is the keystream of the state after one byte. -/
theorem keystreamByte_succ (f : Block → Block) {n : Nat} (e : Engine) (h : n < 16) (q : Nat) :
    keystreamByte f (beNat e.ctr) n e.ecount (q + 1) =
      keystreamByte f (beNat (refill f n e).ctr) ((n + 1) % 16) (refill f n e).ecount q := by
  by_cases hn : n = 0
  · subst n
    rw [keystreamByte, keystreamByte, if_pos rfl, if_neg (by decide), refill, if_pos rfl, regenerate_ctr,
      regenerate_ecount, beNat_inc128, show (0 + 1) % 16 = 1 from rfl, Nat.zero_add]
    split
    · rw [show (q + 1) / 16 = 0 by omega, keystreamBlock_eq, Nat.mod_eq_of_lt (by omega), Nat.add_comm]
    · rw [keystreamBlock_succ, Nat.add_comm 1 q, show (q + 1) / 16 - 1 + 1 = (q + 1) / 16 by omega]
  · rw [refill, if_neg hn, keystreamByte, if_neg hn, keystreamByte]
    by_cases h15 : n = 15
    · subst n
      rw [if_neg (by omega), if_pos (by decide), show (15 + (q + 1)) / 16 - 1 = ((15 + 1) % 16 + q) / 16 by omega,
        show (15 + (q + 1)) % 16 = ((15 + 1) % 16 + q) % 16 by omega]
    · rw [Nat.mod_eq_of_lt (show n + 1 < 16 by omega), if_neg (show n + 1 ≠ 0 by omega),
        show n + (q + 1) = n + 1 + q by omega]

/-- Output byte `q` of the loop is input byte `q` XOR keystream byte `q`, in place or not. -/
theorem readByte_ctrLoop {f : Block → Block} {k src dst n : Nat} {e : Engine} {m : Memory} (hm : m.wf = true)
    (hd : dst + k ≤ 4294967296) (ha : Apart src dst k) (hn : n < 16) {q : Nat} (hq : q < k) :
    readByte (ctrLoop f k src dst n e m).2.2 (dst + q) =
      readByte m (src + q) ^^^ keystreamByte f (beNat e.ctr) n e.ecount q := by
  induction k generalizing src dst n e m q with
  | zero => omega
  | succ k ih =>
    rw [ctrLoop]
    cases q with
    | zero =>
      rw [readByte_ctrLoop_outside (by omega), keystreamByte_zero f e hn]
      exact readByte_writeByte_same hm
    | succ q =>
      rw [show dst + (q + 1) = dst + 1 + q by omega, show src + (q + 1) = src + 1 + q by omega,
        ih (wf_writeByte hm (by omega)) (by omega) (by omega) (by omega) (by omega),
        keystreamByte_succ f e hn, readByte_writeByte_other (by omega)]

/-! The stream state after the loop -/

theorem ctrLoop_num (f : Block → Block) (k src dst : Nat) {n : Nat} (e : Engine) (m : Memory) (hn : n < 16) :
    (ctrLoop f k src dst n e m).1 = (n + k) % 16 := by
  induction k generalizing src dst n e m with
  | zero => exact (Nat.mod_eq_of_lt hn).symm
  | succ k ih => rw [ctrLoop, ih _ _ _ _ (by omega)]; omega

theorem regenerations_succ {n : Nat} (k : Nat) (hn : n < 16) :
    regenerations (k + 1) n = regenerations k ((n + 1) % 16) + (if n = 0 then 1 else 0) := by
  simp only [regenerations]
  split_ifs <;> omega

theorem ctrLoop_ctr (f : Block → Block) (k src dst : Nat) {n : Nat} (e : Engine) (m : Memory) (hn : n < 16) :
    (ctrLoop f k src dst n e m).2.1.ctr = beBytes 16 ((beNat e.ctr + regenerations k n) % 2 ^ 128) := by
  induction k generalizing src dst n e m with
  | zero =>
    have h := beNat_lt e.ctr
    have h0 : regenerations 0 n = 0 := by simp only [regenerations]; split_ifs <;> omega
    rw [h0, Nat.add_zero, Nat.mod_eq_of_lt (by norm_num at h ⊢; exact h), beBytes_beNat]
    rfl
  | succ k ih =>
    rw [ctrLoop, ih _ _ _ _ (by omega), regenerations_succ k hn, refill]
    split
    · rw [regenerate_ctr, beNat_inc128, Nat.mod_add_mod]
      congr 2
      omega
    · rfl

theorem ctrLoop_ecount (f : Block → Block) (k src dst : Nat) {n : Nat} (e : Engine) (m : Memory) (hn : n < 16) :
    (ctrLoop f k src dst n e m).2.1.ecount =
      if regenerations k n = 0 then e.ecount else keystreamBlock f (beNat e.ctr) (regenerations k n - 1) := by
  induction k generalizing src dst n e m with
  | zero =>
    have h0 : regenerations 0 n = 0 := by simp only [regenerations]; split_ifs <;> omega
    rw [h0]
    rfl
  | succ k ih =>
    rw [ctrLoop, ih _ _ _ _ (by omega), regenerations_succ k hn, refill]
    by_cases h : n = 0
    · rw [if_pos h, if_pos h, regenerate_ctr, regenerate_ecount, beNat_inc128, if_neg (Nat.succ_ne_zero _)]
      split
      · rename_i h0
        rw [h0]
        exact (keystreamBlock_eq f e).symm
      · rw [keystreamBlock_succ]
        congr 1
        omega
    · simp only [if_neg h, Nat.add_zero]

theorem setEcV_idem (v : Word) : setEcV (setEcV v) = setEcV v := by
  rw [setEcV, setEcV, BitVec.or_assoc, BitVec.or_self]

theorem ctrLoop_valid (f : Block → Block) (k src dst : Nat) {n : Nat} (e : Engine) (m : Memory) (hn : n < 16) :
    (ctrLoop f k src dst n e m).2.1.valid = if regenerations k n = 0 then e.valid else setEcV e.valid := by
  induction k generalizing src dst n e m with
  | zero =>
    have h0 : regenerations 0 n = 0 := by simp only [regenerations]; split_ifs <;> omega
    rw [h0]
    rfl
  | succ k ih =>
    rw [ctrLoop, ih _ _ _ _ (by omega), regenerations_succ k hn, refill]
    by_cases h : n = 0
    · rw [if_pos h, if_pos h, regenerate_valid, if_neg (Nat.succ_ne_zero _), setEcV_idem, ite_self]
    · simp only [if_neg h, Nat.add_zero]

/-- The loop over `j + k` bytes is the loop over `j` bytes and then over `k` from where it stopped. -/
theorem ctrLoop_add (f : Block → Block) (j k src dst n : Nat) (e : Engine) (m : Memory) :
    ctrLoop f (j + k) src dst n e m =
      ctrLoop f k (src + j) (dst + j) (ctrLoop f j src dst n e m).1 (ctrLoop f j src dst n e m).2.1
        (ctrLoop f j src dst n e m).2.2 := by
  induction j generalizing src dst n e m with
  | zero => rw [Nat.zero_add]; rfl
  | succ j ih =>
    rw [Nat.succ_add, ctrLoop, ih, ctrLoop, show src + 1 + j = src + (j + 1) by omega,
      show dst + 1 + j = dst + (j + 1) by omega]

/-- The loop reads of the engine's registers only CTR, ECOUNT and VALID. -/
theorem ctrLoop_congr (f : Block → Block) (k src dst n : Nat) {e e' : Engine} (m : Memory) (h1 : e'.ctr = e.ctr)
    (h2 : e'.ecount = e.ecount) (h3 : e'.valid = e.valid) :
    (ctrLoop f k src dst n e' m).1 = (ctrLoop f k src dst n e m).1 ∧
      (ctrLoop f k src dst n e' m).2.2 = (ctrLoop f k src dst n e m).2.2 ∧
      (ctrLoop f k src dst n e' m).2.1.ctr = (ctrLoop f k src dst n e m).2.1.ctr ∧
      (ctrLoop f k src dst n e' m).2.1.ecount = (ctrLoop f k src dst n e m).2.1.ecount ∧
      (ctrLoop f k src dst n e' m).2.1.valid = (ctrLoop f k src dst n e m).2.1.valid := by
  induction k generalizing src dst n e e' m with
  | zero => exact ⟨rfl, rfl, h1, h2, h3⟩
  | succ k ih =>
    have r1 : (refill f n e').ctr = (refill f n e).ctr := by simp only [refill]; split_ifs <;> simp [h1]
    have r2 : (refill f n e').ecount = (refill f n e).ecount := by simp only [refill]; split_ifs <;> simp [h1, h2]
    have r3 : (refill f n e').valid = (refill f n e).valid := by simp only [refill]; split_ifs <;> simp [h3]
    rw [ctrLoop, ctrLoop, r2]
    exact ih _ _ _ _ r1 r2 r3

end Sys2Proof.Machine
end

