-- ==== Sys2Proof/Laws/Command.lean ====
section
/-!
SUPPORT. What running a command can do: the cases of the shared operation, what a passed check says of the
buffers, and what each command's operation writes.
-/

namespace Sys2Proof.Machine

/-! The shared operation -/

theorem check_ok_iff {i : Instr} {e : Engine} :
    check i e = .ok ↔ keyV e.valid = 0xFF ∧ operandCheck i e = .ok ∧ bufferCheck e = .ok := by
  rw [check]
  split_ifs with hk ho
  · exact ⟨fun h => (by cases h), fun h => absurd h.1 hk⟩
  · simp [ho]
  · simp only [not_not] at hk ho
    simp [hk, ho]

/-- A passed buffer check: both buffers lie in the address space and are in place or disjoint. -/
theorem bufferCheck_ok {e : Engine} (h : bufferCheck e = .ok) :
    e.src.toNat + e.len.toNat ≤ 4294967296 ∧ e.dst.toNat + e.len.toNat ≤ 4294967296 ∧
      Apart e.src.toNat e.dst.toNat e.len.toNat := by
  have hs := e.src.isLt
  have hd := e.dst.isLt
  rw [bufferCheck] at h
  split_ifs at h with h1 h2
  simp only [inRange, decide_eq_true_eq] at h1
  simp only [overlaps, Bool.and_eq_true, decide_eq_true_eq] at h2
  omega

theorem check_ok_buffers {i : Instr} {e : Engine} (h : check i e = .ok) :
    e.src.toNat + e.len.toNat ≤ 4294967296 ∧ e.dst.toNat + e.len.toNat ≤ 4294967296 ∧
      Apart e.src.toNat e.dst.toNat e.len.toNat :=
  bufferCheck_ok (check_ok_iff.1 h).2.2

/-- A passed IGE check: LEN is a nonzero multiple of 16. -/
theorem igeOperandCheck_ok {e : Engine} (h : igeOperandCheck e = .ok) :
    ivV e.valid = 0xFF ∧ 0 < e.len.toNat ∧ 16 * (e.len.toNat / 16) = e.len.toNat := by
  rw [igeOperandCheck] at h
  split_ifs at h with h1 h2
  exact ⟨not_not.1 h1, by omega, by omega⟩

/-- A passed CTR check: NUM is below 16, the counter is written, and so is the cache where it is used. -/
theorem ctrOperandCheck_ok {e : Engine} (h : ctrOperandCheck e = .ok) :
    e.num.toNat < 16 ∧ ctrV e.valid = 0xF ∧ (e.num.toNat ≠ 0 → ecV e.valid = 0xF) := by
  rw [ctrOperandCheck] at h
  split_ifs at h with h1 h2 h3
  refine ⟨by omega, not_not.1 h2, fun hn => ?_⟩
  by_contra hv
  exact h3 ⟨hn, hv⟩

theorem bufferCheck_ok_iff {e : Engine} :
    bufferCheck e = .ok ↔
      (0 < e.len.toNat → e.src.toNat + e.len.toNat ≤ 2 ^ 32 ∧ e.dst.toNat + e.len.toNat ≤ 2 ^ 32) ∧
        ¬(0 < e.len.toNat ∧ e.src.toNat ≠ e.dst.toNat ∧ e.src.toNat < e.dst.toNat + e.len.toNat ∧
          e.dst.toNat < e.src.toNat + e.len.toNat) := by
  rw [bufferCheck]
  split_ifs with h1 h2
  · simp only [inRange, decide_eq_true_eq] at h1
    simp only [false_iff]
    omega
  · simp only [overlaps, Bool.and_eq_true, decide_eq_true_eq] at h2
    simp only [false_iff]
    omega
  · simp only [inRange, decide_eq_true_eq] at h1
    simp only [overlaps, Bool.and_eq_true, decide_eq_true_eq] at h2
    simp only [true_iff]
    omega

theorem igeOperandCheck_ok_iff {e : Engine} :
    igeOperandCheck e = .ok ↔ ivV e.valid = 0xFF ∧ e.len.toNat ≠ 0 ∧ e.len.toNat % 16 = 0 := by
  rw [igeOperandCheck]
  split_ifs with h1 h2
  · exact ⟨fun h => (by cases h), fun h => absurd h.1 h1⟩
  · exact ⟨fun h => (by cases h), fun h => (by omega)⟩
  · exact ⟨fun _ => ⟨not_not.1 h1, by omega, by omega⟩, fun _ => rfl⟩

theorem ctrOperandCheck_ok_iff {e : Engine} :
    ctrOperandCheck e = .ok ↔
      e.num.toNat < 16 ∧ ctrV e.valid = 0xF ∧ (e.num.toNat ≠ 0 → ecV e.valid = 0xF) := by
  rw [ctrOperandCheck]
  split_ifs with h1 h2 h3
  · exact ⟨fun h => (by cases h), fun h => (by omega)⟩
  · exact ⟨fun h => (by cases h), fun h => absurd h.2.1 h2⟩
  · exact ⟨fun h => (by cases h), fun h => absurd (h.2.2 h3.1) h3.2⟩
  · exact ⟨fun _ => ⟨by omega, not_not.1 h2, fun hn => not_not.1 fun hv => h3 ⟨hn, hv⟩⟩, fun _ => rfl⟩

/-- The checks of a command pass exactly under its listed preconditions. -/
theorem check_ok_iff_preconditions {i : Instr} {e : Engine} : check i e = .ok ↔ Preconditions i e := by
  rw [check_ok_iff, bufferCheck_ok_iff]
  cases i with
  | igeEnc =>
    rw [operandCheck, igeOperandCheck_ok_iff]
    constructor
    · rintro ⟨hk, ⟨hi, hl, hm⟩, hr, ho⟩
      exact ⟨hk, hi, hl, hm, by omega, by omega, by omega⟩
    · rintro ⟨hk, hi, hl, hm, h1, h2, h3⟩
      exact ⟨hk, ⟨hi, hl, hm⟩, fun _ => ⟨h1, h2⟩, by omega⟩
  | igeDec =>
    rw [operandCheck, igeOperandCheck_ok_iff]
    constructor
    · rintro ⟨hk, ⟨hi, hl, hm⟩, hr, ho⟩
      exact ⟨hk, hi, hl, hm, by omega, by omega, by omega⟩
    · rintro ⟨hk, hi, hl, hm, h1, h2, h3⟩
      exact ⟨hk, ⟨hi, hl, hm⟩, fun _ => ⟨h1, h2⟩, by omega⟩
  | ctrApply =>
    rw [operandCheck, ctrOperandCheck_ok_iff]
    simp only [Preconditions, CtrPreconditions, and_assoc]

theorem IgeReady.ready {s : State} {e : Engine} (h : IgeReady s e) : Ready .igeEnc s e ∧ Ready .igeDec s e :=
  ⟨⟨h.1, check_ok_iff_preconditions.2 h.2.1, h.2.2⟩, ⟨h.1, check_ok_iff_preconditions.2 h.2.1, h.2.2⟩⟩

theorem CtrReady.ready {s : State} {e : Engine} (h : CtrReady s e) : Ready .ctrApply s e :=
  ⟨h.1, check_ok_iff_preconditions.2 h.2.1, h.2.2⟩

/-- Everything a command's next state can be. -/
theorem runCommand_next {i : Instr} {op : Engine → Memory → Engine × Memory} {s t : State}
    (h : runCommand i op s = .next t) :
    ∃ e, s.engines[s.target]? = some e ∧
      ((check i e ≠ .ok ∧ t = raiseErr s s.target e (check i e)) ∨
        (Ready i s e ∧ t = setMem (setEngine s s.target (setErr (op e s.mem).1 .ok)) (op e s.mem).2)) := by
  rw [runCommand] at h
  split at h
  · cases h
  · rename_i e he
    refine ⟨e, he, ?_⟩
    split_ifs at h with hc hb
    · exact .inl ⟨hc, by cases h; rfl⟩
    · exact .inr ⟨⟨he, not_not.1 hc, hb⟩, by cases h; rfl⟩

theorem runCommand_ready {i : Instr} {op : Engine → Memory → Engine × Memory} {s : State} {e : Engine}
    (h : Ready i s e) :
    runCommand i op s = .next (setMem (setEngine s s.target (setErr (op e s.mem).1 .ok)) (op e s.mem).2) := by
  simp only [runCommand, h.1, h.2.1, h.2.2]
  rfl

theorem runCommand_fails {i : Instr} {op : Engine → Memory → Engine × Memory} {s : State} {e : Engine}
    (he : s.engines[s.target]? = some e) (h : check i e ≠ .ok) :
    runCommand i op s = .next (raiseErr s s.target e (check i e)) := by
  simp only [runCommand, he, if_pos h]

theorem runCommand_stuck {i : Instr} {op : Engine → Memory → Engine × Memory} {s : State} {e : Engine}
    (he : s.engines[s.target]? = some e) (h : check i e = .ok) (hb : buffersServed s.platform e = false) :
    runCommand i op s = .fault (.dmaStuck s.target) := by
  simp [runCommand, he, h, hb]

/-- The operation of each command. -/
def operation : Instr → Engine → Memory → Engine × Memory
  | .igeEnc => igeEncOp Config.cipher
  | .igeDec => igeDecOp Config.cipher
  | .ctrApply => ctrApplyOp Config.cipher

/-- Every command is the shared operation around its own. -/
theorem exec_eq (i : Instr) (s : State) : exec i s = runCommand i (operation i) s := by
  cases i <;> rfl

theorem exec_ready {i : Instr} {s : State} {e : Engine} (h : Ready i s e) :
    exec i s = .next (setMem (setEngine s s.target (setErr (operation i e s.mem).1 .ok)) (operation i e s.mem).2) := by
  rw [exec_eq, runCommand_ready h]

theorem exec_fails {i : Instr} {s : State} {e : Engine} (he : s.engines[s.target]? = some e) (h : check i e ≠ .ok) :
    exec i s = .next (setEngine s s.target (setErr e (check i e))) := by
  rw [exec_eq, runCommand_fails he h]
  rfl

theorem exec_stuck {i : Instr} {s : State} {e : Engine} (he : s.engines[s.target]? = some e) (h : check i e = .ok)
    (hb : buffersServed s.platform e = false) : exec i s = .fault (.dmaStuck s.target) := by
  rw [exec_eq, runCommand_stuck he h hb]

/-- A command run after the addressed instance's registers were set to `f`. -/
theorem exec_setEngine {i : Instr} {s : State} {e f : Engine} (he : s.engines[s.target]? = some e)
    (hc : check i f = .ok) (hb : buffersServed s.platform f = true) :
    exec i (setEngine s s.target f) =
      .next (setMem (setEngine s s.target (setErr (operation i f s.mem).1 .ok)) (operation i f s.mem).2) := by
  rw [exec_ready (i := i) (s := setEngine s s.target f) (e := f) ⟨getElem_set_self f he, hc, hb⟩]
  simp

/-- The platform serves both buffers exactly when it serves every byte of them. -/
theorem buffersServed_iff {p : Platform} {e : Engine} :
    buffersServed p e = true ↔
      ∀ a, InBuffer a e.src.toNat e.len.toNat ∨ InBuffer a e.dst.toNat e.len.toNat → dmaServed p a = true := by
  simp only [buffersServed, Bool.and_eq_true, rangeAll_iff, InBuffer]
  constructor
  · rintro ⟨h1, h2⟩ a (h | h)
    · have := h1 (a - e.src.toNat) (by omega)
      rwa [Nat.add_sub_cancel' h.1] at this
    · have := h2 (a - e.dst.toNat) (by omega)
      rwa [Nat.add_sub_cancel' h.1] at this
  · intro h
    exact ⟨fun i hi => h _ (.inl (by omega)), fun i hi => h _ (.inr (by omega))⟩

/-! The operations -/

theorem readBlocks_operation_igeEnc {e : Engine} {m : Memory} (hm : m.wf = true) (h : check .igeEnc e = .ok) :
    readBlocks (operation .igeEnc e m).2 e.dst.toNat (e.len.toNat / 16) =
      igeEncrypt (Config.cipher e.key) (cipherSeed e.iv) (plainSeed e.iv)
        (readBlocks m e.src.toNat (e.len.toNat / 16)) := by
  have hb := check_ok_buffers h
  have ho := igeOperandCheck_ok (check_ok_iff.1 h).2.1
  exact readBlocks_igeEncLoop hm (by omega) (by rw [ho.2.2]; exact hb.2.2)

theorem readBlocks_operation_igeDec {e : Engine} {m : Memory} (hm : m.wf = true) (h : check .igeDec e = .ok) :
    readBlocks (operation .igeDec e m).2 e.dst.toNat (e.len.toNat / 16) =
      igeDecrypt (Config.cipher e.key).symm (cipherSeed e.iv) (plainSeed e.iv)
        (readBlocks m e.src.toNat (e.len.toNat / 16)) := by
  have hb := check_ok_buffers h
  have ho := igeOperandCheck_ok (check_ok_iff.1 h).2.1
  exact readBlocks_igeDecLoop hm (by omega) (by rw [ho.2.2]; exact hb.2.2)

theorem wf_operation {i : Instr} {e : Engine} {m : Memory} (hm : m.wf = true) (h : check i e = .ok) :
    Memory.wf (operation i e m).2 = true := by
  have hb := check_ok_buffers h
  have ho := (check_ok_iff.1 h).2.1
  cases i with
  | igeEnc => exact wf_igeEncLoop hm (by have := igeOperandCheck_ok ho; omega)
  | igeDec => exact wf_igeDecLoop hm (by have := igeOperandCheck_ok ho; omega)
  | ctrApply => exact wf_ctrLoop hm (by omega)

theorem operation_outside {i : Instr} {e : Engine} {m : Memory} {x : Nat} (h : check i e = .ok)
    (hx : ¬InBuffer x e.dst.toNat e.len.toNat) : readByte (operation i e m).2 x = readByte m x := by
  have ho := (check_ok_iff.1 h).2.1
  rw [InBuffer] at hx
  cases i with
  | igeEnc => exact readByte_igeEncLoop_outside (by have := igeOperandCheck_ok ho; omega)
  | igeDec => exact readByte_igeDecLoop_outside (by have := igeOperandCheck_ok ho; omega)
  | ctrApply => exact readByte_ctrLoop_outside (by omega)

/-- IGE commands write no register of the engine, apart from STATUS. -/
theorem operation_igeEnc_engine (e : Engine) (m : Memory) : (operation .igeEnc e m).1 = e := rfl
theorem operation_igeDec_engine (e : Engine) (m : Memory) : (operation .igeDec e m).1 = e := rfl

/-- The engine after CTR_APPLY's operation, in closed form (spec/41_ctr.md R146). -/
theorem operation_ctrApply_engine {e : Engine} (m : Memory) (h : check .ctrApply e = .ok) :
    (operation .ctrApply e m).1 =
      { e with
        ctr := beBytes 16 ((beNat e.ctr + regenerations e.len.toNat e.num.toNat) % 2 ^ 128)
        ecount := if regenerations e.len.toNat e.num.toNat = 0 then e.ecount
          else keystreamBlock (Config.cipher e.key) (beNat e.ctr) (regenerations e.len.toNat e.num.toNat - 1)
        valid := if regenerations e.len.toNat e.num.toNat = 0 then e.valid else setEcV e.valid
        num := BitVec.ofNat 32 ((e.num.toNat + e.len.toNat) % 16) } := by
  have hn := (ctrOperandCheck_ok (check_ok_iff.1 h).2.1).1
  have so := sameOperands_ctrLoop (Config.cipher e.key) e.len.toNat e.src.toNat e.dst.toNat e.num.toNat e m
  have h1 := ctrLoop_num (Config.cipher e.key) e.len.toNat e.src.toNat e.dst.toNat e m hn
  have h2 := ctrLoop_ctr (Config.cipher e.key) e.len.toNat e.src.toNat e.dst.toNat e m hn
  have h3 := ctrLoop_ecount (Config.cipher e.key) e.len.toNat e.src.toNat e.dst.toNat e m hn
  have h4 := ctrLoop_valid (Config.cipher e.key) e.len.toNat e.src.toNat e.dst.toNat e m hn
  have hop : (operation .ctrApply e m).1 =
      setNum (ctrLoop (Config.cipher e.key) e.len.toNat e.src.toNat e.dst.toNat e.num.toNat e m).2.1
        (ctrLoop (Config.cipher e.key) e.len.toNat e.src.toNat e.dst.toNat e.num.toNat e m).1 := rfl
  rw [hop, h1]
  generalize ctrLoop (Config.cipher e.key) e.len.toNat e.src.toNat e.dst.toNat e.num.toNat e m = r at *
  obtain ⟨n, ⟨k, iv, c, g, u, s, d, l, st, v⟩, m'⟩ := r
  obtain ⟨a1, a2, a3, a4, a5, a6, a7⟩ := so
  simp only at a1 a2 a3 a4 a5 a6 a7 h2 h3 h4
  subst a1 a2 a4 a5 a6 a7 h2 h3 h4
  rfl

/-- What a command's operation leaves in its engine does not depend on memory. -/
theorem operation_engine_congr {i : Instr} {e : Engine} (m m' : Memory) (h : check i e = .ok) :
    (operation i e m').1 = (operation i e m).1 := by
  cases i with
  | igeEnc => rfl
  | igeDec => rfl
  | ctrApply => rw [operation_ctrApply_engine m' h, operation_ctrApply_engine m h]

/-- What a command's operation leaves in its output buffer depends on its input buffer alone. -/
theorem operation_output_congr {i : Instr} {e : Engine} {m m' : Memory} (hm : m.wf = true) (hm' : m'.wf = true)
    (h : check i e = .ok)
    (hs : ∀ q < e.len.toNat, readByte m' (e.src.toNat + q) = readByte m (e.src.toNat + q)) {q : Nat}
    (hq : q < e.len.toNat) :
    readByte (operation i e m').2 (e.dst.toNat + q) = readByte (operation i e m).2 (e.dst.toNat + q) := by
  have hb := check_ok_buffers h
  have ho := (check_ok_iff.1 h).2.1
  cases i with
  | igeEnc =>
    have hl := (igeOperandCheck_ok ho).2.2
    have b := readBlocks_operation_igeEnc hm' h
    rw [readBlocks_eq_iff.2 fun q hq => hs q (by omega), ← readBlocks_operation_igeEnc hm h] at b
    exact readBlocks_eq_iff.1 b q (by omega)
  | igeDec =>
    have hl := (igeOperandCheck_ok ho).2.2
    have b := readBlocks_operation_igeDec hm' h
    rw [readBlocks_eq_iff.2 fun q hq => hs q (by omega), ← readBlocks_operation_igeDec hm h] at b
    exact readBlocks_eq_iff.1 b q (by omega)
  | ctrApply =>
    have hn := (ctrOperandCheck_ok ho).1
    have b := readByte_ctrLoop (f := Config.cipher e.key) (e := e) hm hb.2.1 hb.2.2 hn hq
    have b' := readByte_ctrLoop (f := Config.cipher e.key) (e := e) hm' hb.2.1 hb.2.2 hn hq
    rw [hs q hq, ← b] at b'
    exact b'

end Sys2Proof.Machine
end

