-- ==== Sys2Proof/Laws/HostPort.lean ====
section
/-!
SUPPORT. What a host action can do, said once: a property that every primitive update keeps is kept by every
step; and the invariants that follow.
-/

namespace Sys2Proof.Machine

@[simp] theorem resetEngines_mem (s : State) : (resetEngines s).mem = s.mem := rfl
@[simp] theorem resetEngines_pending (s : State) : (resetEngines s).pending = s.pending := rfl
@[simp] theorem resetEngines_pos (s : State) : (resetEngines s).pos = s.pos := rfl
@[simp] theorem resetEngines_observed (s : State) : (resetEngines s).observed = s.observed := rfl
@[simp] theorem resetEngines_target (s : State) : (resetEngines s).target = s.target := rfl
@[simp] theorem resetEngines_platform (s : State) : (resetEngines s).platform = s.platform := rfl

/-- Writing back what an instance holds changes nothing. -/
theorem setEngine_self {s : State} {k : Nat} {e : Engine} (he : s.engines[k]? = some e) : setEngine s k e = s := by
  have h : s.engines.set k e = s.engines := by
    apply List.ext_getElem?
    intro i
    rw [List.getElem?_set]
    split_ifs with h1 h2
    · rw [← h1, he]
    · rw [← h1, List.getElem?_eq_none (by omega)]
    · rfl
  rw [setEngine, h]

/-- An access that gets through addresses an instance that exists, with 32 bits, at a register's offset. -/
theorem access_ok {s : State} {k : Nat} {width : AccessWidth} {off : BitVec 8} {e : Engine} {r : Reg} :
    access s k width off = .ok (e, r) ↔ s.engines[k]? = some e ∧ width = .word ∧ regAt off = some r := by
  rw [access]
  split
  · rename_i h
    simp [h]
  · rename_i e' h
    by_cases hw : width = .word
    · rw [if_neg (not_not.2 hw)]
      split
      · rename_i hr
        simp [h, hr]
      · rename_i r' hr
        simp [h, hw, hr]
    · rw [if_pos hw]
      simp [hw]

/-- Every register access the machine answers goes to a register of the map. -/
theorem access_word {s : State} {k : Nat} {e : Engine} (r : Reg) (h : s.engines[k]? = some e) :
    access s k .word (offsetOf r) = .ok (e, r) :=
  access_ok.2 ⟨h, rfl, regAt_offsetOf r⟩

theorem memoryAccess_ok {p : Platform} {a n : Nat} {u : Unit} (h : memoryAccess p a n = .ok u) :
    a + n ≤ 4294967296 ∧ ∀ i < n, inWindow p (a + i) = false := by
  rw [memoryAccess] at h
  split_ifs at h with h1 h2
  exact ⟨by omega, fun i hi => by simpa using rangeAll_iff.1 h2 i hi⟩

/-- No check answers a reserved code. -/
theorem check_ne_entropy (i : Instr) (e : Engine) : check i e ≠ .entropyFailure := by
  have hb : bufferCheck e ≠ .entropyFailure := by rw [bufferCheck]; split_ifs <;> decide
  have ho : operandCheck i e ≠ .entropyFailure := by
    cases i <;> simp only [operandCheck, igeOperandCheck, ctrOperandCheck] <;> split_ifs <;> decide
  rw [check]
  split_ifs
  · decide
  · exact ho
  · exact hb

/-- A property that every primitive update of a host action keeps, register writes other than CMD and reset
apart. -/
structure Kept (I : State → Prop) : Prop where
  select : ∀ {s} (k : Nat), I s → I (selectEngine s k)
  observe : ∀ {s} (o : Observation), I s → I (observe s o)
  error : ∀ {s k e} (c : ErrCode), c ≠ .entropyFailure → s.engines[k]? = some e → I s → I (raiseErr s k e c)
  command : ∀ {i s e}, Ready i s e → I s →
    I (setMem (setEngine s s.target (setErr (operation i e s.mem).1 .ok)) (operation i e s.mem).2)
  store : ∀ {s} (a : Nat) (bs : List Byte), a + bs.length ≤ 4294967296 → I s → I (setMem s (writeList s.mem a bs))

theorem Kept.exec {I : State → Prop} (h : Kept I) {i : Instr} {s t : State} (ht : exec i s = .next t) (hs : I s) :
    I t := by
  rw [exec_eq] at ht
  obtain ⟨e, he, ⟨_, rfl⟩ | ⟨hr, rfl⟩⟩ := runCommand_next ht
  · exact h.error _ (check_ne_entropy i e) he hs
  · exact h.command hr hs

theorem Kept.cmdWrite {I : State → Prop} (h : Kept I) {k : Nat} {v : Word} {s t : State}
    (ht : cmdWrite k v s = .next t) (hs : I s) : I t := by
  rw [Machine.cmdWrite] at ht
  split at ht
  · cases ht
  · rename_i e he
    split at ht
    · exact h.exec ht (h.select k hs)
    · cases ht
      exact h.error _ (by decide) he (h.select k hs)

/-- What a register write other than CMD must keep, for the write at hand. -/
abbrev KeepsWrite (I : State → Prop) (a : HostAction) : Prop :=
  ∀ (s : State) (k : Nat) (off : BitVec 8) (v : Word) (e : Engine) (r : Reg), a = .regWrite k .word off v →
    s.engines[k]? = some e → regAt off = some r → r ≠ .cmd → I s → I (setEngine s k (writeReg e v r))

theorem Kept.regWrite {I : State → Prop} (h : Kept I) {k : Nat} {width : AccessWidth} {off : BitVec 8} {v : Word}
    {s t : State} (hw : KeepsWrite I (.regWrite k width off v)) (ht : regWrite k width off v s = .next t)
    (hs : I s) : I t := by
  rw [Machine.regWrite] at ht
  split at ht
  · cases ht
  · rename_i e r ha
    obtain ⟨he, rfl, hr⟩ := access_ok.1 ha
    split_ifs at ht with hc
    · exact h.cmdWrite ht hs
    · cases ht
      exact hw s k off v e r rfl he hr hc hs

theorem Kept.regRead {I : State → Prop} (h : Kept I) {k : Nat} {width : AccessWidth} {off : BitVec 8}
    {s t : State} (ht : regRead k width off s = .next t) (hs : I s) : I t := by
  rw [Machine.regRead] at ht
  split at ht
  · cases ht
  · cases ht
    exact h.observe _ hs

theorem Kept.hostStore {I : State → Prop} (h : Kept I) {a : Nat} {bs : List Byte} {s t : State}
    (ht : hostStore a bs s = .next t) (hs : I s) : I t := by
  rw [Machine.hostStore] at ht
  split at ht
  · cases ht
  · rename_i ha
    cases ht
    exact h.store a bs (memoryAccess_ok ha).1 hs

theorem Kept.hostLoad {I : State → Prop} (h : Kept I) {a n : Nat} {s t : State}
    (ht : hostLoad a n s = .next t) (hs : I s) : I t := by
  rw [Machine.hostLoad] at ht
  split at ht
  · cases ht
  · cases ht
    exact h.observe _ hs

theorem Kept.agentWrites {I : State → Prop} (h : Kept I) {l : List AgentEvent} {s t : State}
    (ht : agentWrites l s = .next t) (hs : I s) : I t := by
  induction l generalizing s with
  | nil => cases ht; exact hs
  | cons o l ih =>
    cases o with
    | read a => exact ih ht hs
    | reset => exact ih ht hs
    | write a v =>
      rw [Machine.agentWrites] at ht
      split at ht
      · rename_i u hu
        exact ih ht (h.hostStore hu hs)
      · cases ht
      · cases ht

theorem Kept.cmdWrites {I : State → Prop} (h : Kept I) {l : List (Nat × Word)} {s t : State}
    (ht : cmdWrites l s = .next t) (hs : I s) : I t := by
  induction l generalizing s with
  | nil => cases ht; exact hs
  | cons c l ih =>
    rw [Machine.cmdWrites] at ht
    split at ht
    · rename_i u hu
      exact ih ht (h.cmdWrite hu hs)
    · cases ht
    · cases ht

theorem Kept.overlapped {I : State → Prop} (h : Kept I) {cs : List (Nat × Word)} {os : List AgentEvent}
    {s t : State} (ht : overlapped cs os s = .next t) (hs : I s) : I t := by
  rw [Machine.overlapped] at ht
  split_ifs at ht
  split at ht
  · rename_i u hu
    exact h.cmdWrites ht (h.agentWrites hu hs)
  · cases ht
  · cases ht

/-- Every host action keeps a kept property, if the register write or the reset it may be does. -/
theorem Kept.perform {I : State → Prop} (h : Kept I) {a : HostAction} {s t : State} (hw : KeepsWrite I a)
    (hreset : a = .reset → I s → I (resetEngines s)) (ht : perform a s = .next t) (hs : I s) : I t := by
  cases a with
  | regWrite k width off v => exact h.regWrite hw ht hs
  | regRead k width off => exact h.regRead ht hs
  | store b bytes => exact h.hostStore ht hs
  | load b n => exact h.hostLoad ht hs
  | overlapped cmds others => exact h.overlapped ht hs
  | reset => cases ht; exact hreset rfl hs

/-- A step is no step at the end of the host program, and otherwise its next action. -/
theorem step_nil {s : State} (h : s.pending = []) : step s = .next s := by
  rw [step, hostStep, h]

theorem step_cons {s : State} {a : HostAction} {rest : List HostAction} (h : s.pending = a :: rest) :
    step s = perform a (advance s rest) := by
  rw [step, hostStep, h]

/-- A host write of a register other than CMD, as a step. -/
theorem step_write {s : State} {k : Nat} {e : Engine} {v : Word} {rest : List HostAction} {off : BitVec 8} (r : Reg)
    (he : s.engines[k]? = some e) (hr : offsetOf r = off) (hc : r ≠ .cmd)
    (hp : s.pending = .regWrite k .word off v :: rest) :
    step s = .next (setEngine (advance s rest) k (writeReg e v r)) := by
  subst hr
  rw [step_cons hp, perform, regWrite, access_word (s := advance s rest) r he]
  simp only [if_neg hc]

/-- A host write of CMD, as a step. -/
theorem step_cmdWrite {s : State} {k : Nat} {e : Engine} {v : Word} {rest : List HostAction}
    (he : s.engines[k]? = some e) (hp : s.pending = .regWrite k .word 0x70 v :: rest) :
    step s = cmdWrite k v (advance s rest) := by
  rw [show (0x70 : BitVec 8) = offsetOf .cmd from rfl] at hp
  rw [step_cons hp, perform, regWrite, access_word (s := advance s rest) .cmd he]
  simp only [if_true]

/-- A host read of a register, as a step. -/
theorem step_read {s : State} {k : Nat} {e : Engine} {rest : List HostAction} {off : BitVec 8} (r : Reg)
    (he : s.engines[k]? = some e) (hr : offsetOf r = off) (hp : s.pending = .regRead k .word off :: rest) :
    step s = .next (observe (advance s rest) (.word (readReg e r))) := by
  subst hr
  rw [step_cons hp, perform, regRead, access_word (s := advance s rest) r he]

/-- Every step keeps a kept property, if moving on in the host program does, and the register write or the
reset it may be. -/
theorem Kept.step {I : State → Prop} (h : Kept I) {s t : State} (hadv : ∀ r, I s → I (advance s r)) (hw : ∀ a ∈ s.pending.head?, KeepsWrite I a)
    (hreset : HostAction.reset ∈ s.pending.head? → ∀ s, I s → I (resetEngines s)) (ht : Machine.step s = .next t)
    (hs : I s) : I t := by
  cases hp : s.pending with
  | nil =>
    rw [step_nil hp] at ht
    cases ht
    exact hs
  | cons a rest =>
    rw [step_cons hp] at ht
    rw [hp] at hw hreset
    exact h.perform (hw a rfl) (fun ha => hreset (by rw [ha]; rfl) _) ht (hadv rest hs)

/-! A CMD write, and two of them at the same time -/

/-- Everything the next state of a CMD write can be. -/
theorem cmdWrite_next {k : Nat} {v : Word} {s t : State} (h : cmdWrite k v s = .next t) :
    ∃ e f m, s.engines[k]? = some e ∧ t = setMem (setEngine (selectEngine s k) k f) m ∧
      (((∀ i, decode v = .ok i → check i e ≠ .ok) ∧ m = s.mem ∧
          f = setErr e (match decode v with | .ok i => check i e | .error _ => .illegalCmd)) ∨
        ∃ i, decode v = .ok i ∧ check i e = .ok ∧ buffersServed s.platform e = true ∧
          f = setErr (operation i e s.mem).1 .ok ∧ m = (operation i e s.mem).2) := by
  rw [cmdWrite] at h
  split at h
  · cases h
  · rename_i e he
    split at h
    · rename_i i hi
      rw [exec_eq] at h
      obtain ⟨f, hf, ⟨hc, rfl⟩ | ⟨hr, rfl⟩⟩ := runCommand_next h
      · cases he.symm.trans hf
        exact ⟨e, _, s.mem, he, rfl, .inl ⟨fun i' h' => (by cases hi.symm.trans h'; exact hc), rfl, (by simp [hi])⟩⟩
      · cases he.symm.trans hf
        exact ⟨e, _, _, he, rfl, .inr ⟨i, hi, hr.2.1, hr.2.2, rfl, rfl⟩⟩
    · rename_i c hd
      cases h
      exact ⟨e, _, s.mem, he, rfl, .inl ⟨fun i' h' => (by cases hd.symm.trans h'), rfl, (by simp [hd])⟩⟩

/-- A command whose checks pass has its buffers as footprint. -/
theorem footprint_some {s : State} {k : Nat} {v : Word} {e : Engine} {i : Instr} (he : s.engines[k]? = some e)
    (hi : decode v = .ok i) (hc : check i e = .ok) :
    footprint s (k, v) = some ⟨k, e.src.toNat, e.dst.toNat, e.len.toNat⟩ := by
  simp [footprint, he, hi, hc]

/-- Two CMD writes one after the other. -/
theorem cmdWrites_two {s t : State} {c d : Nat × Word} (h : cmdWrites [c, d] s = .next t) :
    ∃ u, cmdWrite c.1 c.2 s = .next u ∧ cmdWrite d.1 d.2 u = .next t := by
  simp only [cmdWrites] at h
  split at h
  · rename_i u hu
    refine ⟨u, hu, ?_⟩
    split at h
    · rename_i x hx
      cases h
      exact hx
    · cases h
    · cases h
  · cases h
  · cases h

/-! Relations between an instance before and after -/

theorem getElem_set_cases {l : List Engine} {k j : Nat} {f g : Engine} (h : (l.set k f)[j]? = some g) :
    (j = k ∧ g = f) ∨ (j ≠ k ∧ l[j]? = some g) := by
  rw [List.getElem?_set] at h
  split_ifs at h with a b
  · cases h
    exact .inl ⟨a.symm, rfl⟩
  · exact .inr ⟨fun x => a x.symm, h⟩

/-- Every instance is related to what it was in `s0`. -/
def EachRelated (R : Nat → Engine → Engine → Prop) (s0 s : State) : Prop :=
  ∀ k e f, s0.engines[k]? = some e → s.engines[k]? = some f → R k e f

theorem EachRelated.setEngine {R : Nat → Engine → Engine → Prop} (tr : ∀ k a b c, R k a b → R k b c → R k a c)
    {s0 s : State} {k : Nat} {e f : Engine} (hk : s.engines[k]? = some e) (hr : R k e f) (h : EachRelated R s0 s) :
    EachRelated R s0 (setEngine s k f) := by
  intro j a b ha hb
  rcases getElem_set_cases hb with ⟨rfl, rfl⟩ | ⟨_, hj⟩
  · exact tr _ _ _ _ (h j a e ha hk) hr
  · exact h j a b ha hj

/-- A transitive relation that errors and commands respect is kept. -/
theorem EachRelated.kept {R : Nat → Engine → Engine → Prop} (tr : ∀ k a b c, R k a b → R k b c → R k a c) (s0 : State)
    (he : ∀ k e c, R k e (setErr e c))
    (ho : ∀ k i e m, check i e = .ok → R k e (setErr (operation i e m).1 .ok)) : Kept (EachRelated R s0) where
  select _ h := h
  observe _ h := h
  error c _ hk h := EachRelated.setEngine (R := R) tr hk (he _ _ c) h
  command {i s e} hr h := by
    have h' : EachRelated R s0 (Machine.setEngine s s.target (setErr (operation i e s.mem).1 .ok)) :=
      EachRelated.setEngine (R := R) tr hr.1 (ho _ _ _ _ hr.2.1) h
    exact h'
  store _ _ _ h := h

theorem EachRelated.refl {R : Nat → Engine → Engine → Prop} (r : ∀ k e, R k e e) (s : State) : EachRelated R s s := by
  intro k e f he hf
  rw [he] at hf
  cases hf
  exact r k e

end Sys2Proof.Machine
end

