-- ==== Sys2Proof/Laws/Legal.lean ====
section
/-!
SUPPORT. What keeps a legal state legal: status codes, VALID bits and the replacement of one instance.
-/

namespace Sys2Proof.Machine

theorem statusLegal_statusOf {c : ErrCode} (h : c ≠ .entropyFailure) : statusLegal (statusOf c) = true := by
  cases c with
  | entropyFailure => exact absurd rfl h
  | _ => decide

theorem validLegal_iff {v : Word} : validLegal v = true ↔ ∀ n, 24 ≤ n → v.getLsbD n = false := by
  rw [validLegal, decide_eq_true_eq]
  constructor
  · intro h n hn
    by_cases h32 : n < 32
    · have := congrArg (fun x => x.getLsbD (n - 24)) h
      simp only [BitVec.getLsbD_extractLsb', show 24 + (n - 24) = n by omega] at this
      simpa [show n - 24 < 8 by omega] using this
    · exact BitVec.getLsbD_of_ge _ _ (by omega)
  · intro h
    apply BitVec.eq_of_getLsbD_eq
    intro i hi
    simp [h]

theorem validLegal_setValidBit {v : Word} {k : Nat} (h : validLegal v = true) (hk : k < 24) :
    validLegal (setValidBit v k) = true := by
  rw [validLegal_iff] at h ⊢
  intro n hn
  by_cases h32 : n < 32
  · rw [setValidBit_bit _ _ h32, h n hn]
    simp
    omega
  · exact BitVec.getLsbD_of_ge _ _ (by omega)

theorem validLegal_setEcV {v : Word} (h : validLegal v = true) : validLegal (setEcV v) = true := by
  rw [validLegal_iff] at h ⊢
  intro n hn
  have key : ∀ n, 24 ≤ n → n < 32 → (0x00F00000 : Word).getLsbD n = false := by decide
  rw [setEcV, BitVec.getLsbD_or, h n hn, Bool.false_or]
  by_cases h32 : n < 32
  · exact key n hn h32
  · exact BitVec.getLsbD_of_ge _ _ (by omega)

/-- An instance replaced by one with a legal STATUS and VALID. -/
theorem State.Legal.setEngine {s : State} {k : Nat} {f : Engine} (h : s.Legal) (hs : statusLegal f.status = true)
    (hv : validLegal f.valid = true) : (Machine.setEngine s k f).Legal := by
  refine ⟨h.memory, fun e he => ?_, fun e he => ?_, ?_⟩
  · rcases List.mem_or_eq_of_mem_set he with h' | rfl
    · exact h.statuses e h'
    · exact hs
  · rcases List.mem_or_eq_of_mem_set he with h' | rfl
    · exact h.valids e h'
    · exact hv
  · have := h.engines
    simp only [EnginesMatchPlatform, setEngine_engines, List.length_set, setEngine_platform] at this ⊢
    exact this

end Sys2Proof.Machine
end

