-- ==== Sys2Proof/WellFormed.lean ====
section
/-!
DEFINITION. What is well formed: a command, a command word (spec/30_encoding.md R91, R92, R95) and a
host action (spec/10_state.md R43, R46, spec/20_memory.md R60).
-/

namespace Sys2Proof

/-- A command carries no operand (spec/30_encoding.md R94), so every term of `Instr` is well formed. -/
def Instr.wellFormed : Instr → Bool
  | .igeEnc => true
  | .igeDec => true
  | .ctrApply => true

/-- The reserved bits RSVD = [31:4] of a command word are 0 (R91). -/
def reservedBitsClear (w : Word) : Bool := decide (w.toNat / 16 = 0)

/-- The field OP = [3:0] of a command word selects one of the three commands (R92). -/
def operationKnown (w : Word) : Bool := decide (1 ≤ w.toNat % 16) && decide (w.toNat % 16 ≤ 3)

/-- A word that R92 calls legal. -/
def commandWordWellFormed (w : Word) : Bool := reservedBitsClear w && operationKnown w

namespace Machine

/-- A register access of `n` engine instances that the window serves: an instance that exists, 32 bits
wide, at a multiple of 4 (spec/10_state.md R43, R46). -/
def accessWellFormed (n e : Nat) (width : AccessWidth) (off : BitVec 8) : Bool :=
  decide (e < n) && decide (width = .word) && decide (off.toNat % 4 = 0)

/-- A host load or store of `k` bytes at `a` that stays inside the address space
(spec/20_memory.md R60). -/
def rangeWellFormed (a : Word) (k : Nat) : Bool := decide (a.toNat + k ≤ 4294967296)

/-- A host action on `n` engine instances that the interface accepts. -/
def hostActionWellFormed (n : Nat) : HostAction → Bool
  | .regWrite e width off _ => accessWellFormed n e width off
  | .regRead e width off => accessWellFormed n e width off
  | .store a bytes => rangeWellFormed a bytes.length
  | .load a k => rangeWellFormed a k
  | .overlapped cmds _ => cmds.all fun c => decide (c.1 < n)
  | .reset => true

end Machine

end Sys2Proof
end

