-- ==== Sys2Proof/Laws/PerInstr.lean ====
section
/-!
SUPPORT. Statements made per instruction: the command word of each command.
-/

namespace Sys2Proof.Laws.CommandWord

/-- The command is well formed, its word is well formed with the fields of spec/30_encoding.md R91 and R92, and
the word, read as a row of the opcode table, is the command. -/
def Statement (i : Instr) : Prop :=
  i.wellFormed = true ∧ commandWordWellFormed (encode i) = true ∧ cmdRsvd (encode i) = 0 ∧
    cmdOp (encode i) = opOf i ∧ decodeTableWord 32 (encode i).toNat = some i

theorem igeEnc : Statement .igeEnc := by
  refine ⟨?_, ?_, ?_, ?_, ?_⟩ <;> decide

theorem igeDec : Statement .igeDec := by
  refine ⟨?_, ?_, ?_, ?_, ?_⟩ <;> decide

theorem ctrApply : Statement .ctrApply := by
  refine ⟨?_, ?_, ?_, ?_, ?_⟩ <;> decide

end Sys2Proof.Laws.CommandWord
end

