-- ==== Sys2Proof/Machine/HostNotation.lean ====
section
/-!
DEFINITION. The host notation of spec/30_encoding.md R96 and its pseudo-instructions (R97), as the lists
of host actions they stand for, on instance `k`.
-/

namespace Sys2Proof.Machine

/-- `wr NAME, v` (R96). -/
def wr (k : Nat) (r : Reg) (v : Word) : HostAction := .regWrite k .word (offsetOf r) v

/-- `rd NAME` (R96). -/
def rd (k : Nat) (r : Reg) : HostAction := .regRead k .word (offsetOf r)

/-- `ige.enc` (R97). -/
def igeEncPseudo (k : Nat) : HostAction := wr k .cmd 0x00000001

/-- `ige.dec` (R97). -/
def igeDecPseudo (k : Nat) : HostAction := wr k .cmd 0x00000002

/-- `ctr.apply`, `ctr.enc` and `ctr.dec` (R97). -/
def ctrPseudo (k : Nat) : HostAction := wr k .cmd 0x00000003

/-- `ldkey` (R97). -/
def ldKey (k : Nat) (b : Key) : List HostAction := (List.finRange 8).map fun w => wr k (.key w) (getWord b w.val)

/-- `ldiv` (R97). -/
def ldIv (k : Nat) (b : Iv) : List HostAction := (List.finRange 8).map fun w => wr k (.iv w) (getWord b w.val)

/-- `ldctr` (R97). -/
def ldCtr (k : Nat) (b : Block) : List HostAction := (List.finRange 4).map fun w => wr k (.ctr w) (getWord b w.val)

/-- `ldecount` (R97). -/
def ldEcount (k : Nat) (b : Block) : List HostAction :=
  (List.finRange 4).map fun w => wr k (.ecount w) (getWord b w.val)

/-- `buf s, d, n` (R97). -/
def buf (k : Nat) (s d n : Word) : List HostAction := [wr k .src s, wr k .dst d, wr k .len n]

/-- The code `e = x[3:0]` that `chk` takes from the word its `rd STATUS` binds (R97). -/
def chkCode (x : Word) : BitVec 4 := x.extractLsb' 0 4

/-- `chk` (R97). -/
def chk (k : Nat) : HostAction := rd k .status

end Sys2Proof.Machine
end

