-- ==== Sys2Proof/Tests/Slice0.lean ====
section
/-!
SUPPORT. Tests of the model, with the expected results of spec/95_test_vectors.md, and for every statement with
hypotheses a concrete state that meets them.
-/

namespace Sys2Proof.Tests

open Sys2Proof.Machine

/-! ### The TOY cipher (spec/95_test_vectors.md, Part 0) -/

def toyE (k : Key) (x : Block) : Block := Vector.ofFn fun j => byteAt x ((j.val + 1) % 16) ^^^ byteAt k j.val

def toyD (k : Key) (y : Block) : Block :=
  Vector.ofFn fun j => byteAt y ((j.val + 15) % 16) ^^^ byteAt k ((j.val + 15) % 16)

theorem toyD_toyE (k : Key) (x : Block) : toyD k (toyE k x) = x := by
  apply Vector.ext
  intro i hi
  have h : (i + 15) % 16 < 16 := Nat.mod_lt _ (by decide)
  rw [toyD, Vector.getElem_ofFn, byteAt_eq _ h, toyE, Vector.getElem_ofFn]
  simp only
  rw [show ((i + 15) % 16 + 1) % 16 = i by omega, byteAt_eq x hi, BitVec.xor_assoc, BitVec.xor_self, BitVec.xor_zero]

theorem toyE_toyD (k : Key) (y : Block) : toyE k (toyD k y) = y := by
  apply Vector.ext
  intro i hi
  have h : (i + 1) % 16 < 16 := Nat.mod_lt _ (by decide)
  rw [toyE, Vector.getElem_ofFn]
  simp only
  rw [byteAt_eq _ h, toyD, Vector.getElem_ofFn]
  simp only
  rw [show ((i + 1) % 16 + 15) % 16 = i by omega, byteAt_eq y hi, BitVec.xor_assoc, BitVec.xor_self, BitVec.xor_zero]

/-- TOY satisfies the inverse law of spec/00_scope.md R13 in both directions. -/
def toy (k : Key) : Equiv.Perm Block := ⟨toyE k, toyD k, toyD_toyE k, toyE_toyD k⟩

/-! ### A small machine -/

def kt : Key := beBytes 32 0x1111111111111111111111111111111122222222222222222222222222222222
def c0t : Nat := 0x00112233445566778899aabbccddeeff
def p0t : Nat := 0xf0efeeedecebeae9e8e7e6e5e4e3e2e1
def ivt : Iv := beBytes 32 (c0t * 2 ^ 128 + p0t)
/-- The first two blocks of PT. -/
def pt : Nat := 0x4947452d746f792d626c6f636b2d30314947452d746f792d626c6f636b2d3032
/-- The two output blocks of T-IGE-1. -/
def ct : Nat := 0xb799e1ccc7e5a1120c332f53052c3db986f2b58fefa657522c3d4e1c7b31aade

/-- Two instances, every address admitted. -/
def platform : Platform where
  admitted := [⟨0, 4294967296⟩]
  base0 := ⟨0x40000000, by decide⟩
  moreBases := [⟨0x40000100, by decide⟩]

/-- An instance with every operand written and a 32-byte job from 0x1000 to 0x2000. -/
def engine : Engine where
  key := kt
  iv := ivt
  ctr := beBytes 16 1
  ecount := Vector.replicate 16 0
  num := 0
  src := 0x1000
  dst := 0x2000
  len := 32
  status := 0
  valid := 0x00FFFFFF

/-- The machine whose instance 0 holds `e`, with `bytes` at 0x1000. -/
def machine (e : Engine) (bytes : List Byte) : State where
  engines := [e, { Engine.reset with src := 0x3000 }]
  mem := writeList [] 0x1000 bytes
  pending := []
  pos := 0
  observed := []
  target := 0
  platform := platform

/-- The machine with PT at 0x1000. -/
def job (e : Engine) : State := machine e (beBytes 32 pt).toList

/-- A machine about to do `a`. -/
def doing (s : State) (a : HostAction) : State := { s with pending := [a] }

/-- The state after a step that answers one. -/
def after (o : Host.Outcome State Fault Refusal) : Option State :=
  match o with
  | .next t => some t
  | .fault _ => none
  | .refused _ => none

/-- What `f` says of instance 0 after a step. -/
def engineAfter {α : Type} (f : Engine → α) (o : Host.Outcome State Fault Refusal) : Option α :=
  (after o).bind fun t => t.engines.head?.map f

/-- The bytes at `a` after a step. -/
def bytesAfter (a n : Nat) (o : Host.Outcome State Fault Refusal) : Option (List Byte) :=
  (after o).map fun t => readList t.mem a n

/-! ### What is ill formed is refused -/

/-- R91: a reserved bit set. -/
theorem test_reserved_bits_refused : commandWordWellFormed 0x00000011 = false := by decide
/-- R95: OP = 0x4 and OP = 0x0. -/
theorem test_unknown_op_refused :
    commandWordWellFormed 0x00000004 = false ∧ commandWordWellFormed 0x00000000 = false := by decide
/-- R92. -/
theorem test_legal_words_well_formed :
    commandWordWellFormed 0x00000001 = true ∧ commandWordWellFormed 0x00000003 = true := by decide
theorem test_missing_engine_refused : hostActionWellFormed 2 (.regRead 2 .word 0x00) = false := by decide
/-- R46: an 8-bit access, and an offset that is not a multiple of 4 (T-REG-3). -/
theorem test_width_refused : hostActionWellFormed 2 (.regWrite 0 .byte 0x20 0xFF) = false := by decide
theorem test_misaligned_refused : hostActionWellFormed 2 (.regWrite 0 .word 0x22 0) = false := by decide
/-- R60: a load and a store one byte past 2^32. -/
theorem test_load_past_top_refused : hostActionWellFormed 2 (.load 0xFFFFFFFF 2) = false := by decide
theorem test_store_past_top_refused : hostActionWellFormed 2 (.store 0xFFFFFFFF [1, 2]) = false := by decide
theorem test_overlapped_missing_engine_refused :
    hostActionWellFormed 2 (.overlapped [(0, 1), (2, 1)] []) = false := by decide

/-! ### Decoding (R91, R92): each word written out bit by bit, RSVD then OP -/

theorem test_decode_ige_enc : decode 0b0000000000000000000000000000_0001 = .ok .igeEnc := by decide
theorem test_decode_ige_dec : decode 0b0000000000000000000000000000_0010 = .ok .igeDec := by decide
theorem test_decode_ctr_apply : decode 0b0000000000000000000000000000_0011 = .ok .ctrApply := by decide
/-- T-ERR-1: illegal words. -/
theorem test_decode_illegal :
    decode 0x00000000 = .error .unknownOp ∧ decode 0x00000004 = .error .unknownOp ∧
      decode 0x0000000F = .error .unknownOp ∧ decode 0x00000010 = .error .reservedBits ∧
      decode 0x00000013 = .error .reservedBits ∧ decode 0x80000001 = .error .reservedBits := by decide

/-! ### Registers -/

/-- T-REG-1: packing of IV0, and VALID. -/
theorem test_write_iv0 :
    engineAfter (fun e => ((List.range 4).map (byteAt e.iv), e.valid))
      (step (doing (machine Engine.reset []) (wr 0 (.iv 0) 0x33221100))) =
      some ([0x00, 0x11, 0x22, 0x33], 0x00000100) := by decide
/-- T-REG-2: KEY0 packs, sets its VALID bit and reads 0. -/
theorem test_write_key0 :
    engineAfter (fun e => ((List.range 4).map (byteAt e.key), e.valid, readReg e (.key 0)))
      (step (doing (machine Engine.reset []) (wr 0 (.key 0) 0xDEADBEEF))) =
      some ([0xef, 0xbe, 0xad, 0xde], 0x00000001, 0) := by decide
/-- T-REG-2: a write of VALID is ignored. -/
theorem test_write_valid_ignored :
    engineAfter (fun e => e) (step (doing (machine Engine.reset []) (wr 0 .valid 0xFFFFFFFF))) =
      some Engine.reset := by decide
/-- T-REG-2: a write of the reserved offset 0x080 is ignored, and it reads 0. -/
theorem test_write_reserved_ignored :
    engineAfter (fun e => e) (step (doing (machine Engine.reset []) (.regWrite 0 .word 0x80 1))) =
      some Engine.reset := by decide
/-- P2: CTR3 of f0..fdff01 reads 0x01FFFDFC. -/
theorem test_read_ctr3 :
    readReg { engine with ctr := beBytes 16 0xf0f1f2f3f4f5f6f7f8f9fafbfcfdff01 } (.ctr 3) = 0x01FFFDFC := by decide
/-- T-REG-3: the three bus errors. -/
theorem test_bus_errors :
    step (doing (job engine) (.regWrite 0 .byte 0x20 0xFF)) = .fault (.busError 0 0x20) ∧
      step (doing (job engine) (.regRead 0 .half 0x24)) = .fault (.busError 0 0x24) ∧
      step (doing (job engine) (.regWrite 0 .word 0x22 0)) = .fault (.busError 0 0x22) := ⟨rfl, rfl, rfl⟩
/-- T-REG-4: KEY7 missing. -/
theorem test_partial_key :
    engineAfter Engine.status (exec .igeEnc (job { engine with valid := 0x0000007F })) = some 2 := by decide
/-- T-REG-4: IV7 missing. -/
theorem test_partial_iv :
    engineAfter Engine.status (exec .igeEnc (job { engine with valid := 0x00007FFF, len := 16 })) = some 1 := by decide

/-! ### The commands -/

/-- T-IGE-1: IGE_ENC of two blocks. -/
theorem test_ige_enc : bytesAfter 0x2000 32 (runIgeEnc toy (job engine)) = some (beBytes 32 ct).toList := by decide
/-- T-IGE-1, spec/20_memory.md R69: in place, the last block first. -/
theorem test_ige_enc_in_place :
    bytesAfter 0x1010 16 (runIgeEnc toy (job { engine with dst := 0x1000 })) =
      some (beBytes 16 0x86f2b58fefa657522c3d4e1c7b31aade).toList := by decide
/-- T-IGE-1: IGE_DEC of the two output blocks. -/
theorem test_ige_dec :
    bytesAfter 0x2000 32 (runIgeDec toy (machine engine (beBytes 32 ct).toList)) =
      some (beBytes 32 pt).toList := by decide
/-- T-IGE-2: IGE_DEC with the halves of IV swapped. -/
theorem test_ige_dec_swapped :
    bytesAfter 0x2000 32
      (runIgeDec toy (machine { engine with iv := beBytes 32 (p0t * 2 ^ 128 + c0t) } (beBytes 32 ct).toList)) =
      some (beBytes 32 0xa749773f02794b3f9c725d711d3b02235ba94b1f66196f1f70927151795b2600).toList := by decide
/-- T-CTR-7: the output of 18 zero bytes. -/
theorem test_ctr_apply :
    bytesAfter 0x2000 18 (runCtrApply toy (machine { engine with len := 18 } [])) =
      some (beBytes 18 0x111111111111111111111111111110111111).toList := by decide
/-- T-CTR-7: CTR, NUM, ECOUNT and VALID at the end. -/
theorem test_ctr_apply_state :
    engineAfter (fun e => (e.ctr, e.num, e.ecount, e.valid))
      (runCtrApply toy (machine { engine with len := 18, valid := 0x000F00FF } [])) =
      some (beBytes 16 3, 2, beBytes 16 0x11111111111111111111111111111311, 0x00FF00FF) := by decide

/-! ### Checks -/

/-- T-IGE-8 and T-ERR-2: what the checks of IGE_ENC answer. -/
theorem test_ige_checks :
    check .igeEnc { engine with len := 0 } = .invalidLength ∧
      check .igeEnc { engine with len := 24, src := 0xFFFFFFF0, dst := 0xFFFFFFF0 } = .invalidLength ∧
      check .igeEnc { engine with len := 16, src := 0xFFFFFFF0, dst := 0x1000 } = .ok ∧
      check .igeEnc { engine with len := 0xFFFFFFF0, src := 0x10, dst := 0x10 } = .ok ∧
      check .igeEnc { engine with len := 0xFFFFFFF0, src := 0x11, dst := 0x11 } = .range ∧
      check .igeEnc { engine with len := 0xFFFFFFF0, src := 0x0, dst := 0x10 } = .overlap := by decide
/-- T-CTR-5 and T-CTR-6: what the checks of CTR_APPLY answer. -/
theorem test_ctr_checks :
    check .ctrApply { engine with num := 16 } = .invalidState ∧
      check .ctrApply { engine with num := 0xFFFFFFFF } = .invalidState ∧
      check .ctrApply { engine with num := 3, valid := 0x000FFFFF } = .invalidState ∧
      check .ctrApply { engine with num := 1, valid := 0x007FFFFF } = .invalidState ∧
      check .ctrApply { engine with num := 0, valid := 0x000FFFFF } = .ok ∧
      check .ctrApply { engine with num := 16, valid := 0x00FFFF00 } = .invalidKey ∧
      check .ctrApply { engine with len := 0, dst := 0x1008 } = .ok := by decide
/-- T-ERR-3. -/
theorem test_range_and_overlap :
    check .ctrApply { engine with src := 0xFFFFFFF0, dst := 0x1000, len := 0x20 } = .range ∧
      check .ctrApply { engine with src := 0xFFFFFFF0, dst := 0x1000, len := 0x10 } = .ok ∧
      check .ctrApply { engine with src := 0x1000, dst := 0xFFFFFFF0, len := 0x20 } = .range ∧
      check .ctrApply { engine with src := 0x1000, dst := 0x1008, len := 0x10 } = .overlap ∧
      check .ctrApply { engine with src := 0x1010, dst := 0x1000, len := 0x20 } = .overlap ∧
      check .ctrApply { engine with src := 0x1000, dst := 0x1010, len := 0x10 } = .ok ∧
      check .ctrApply { engine with src := 0x1000, dst := 0x1000, len := 0x20 } = .ok := by decide
/-- T-ERR-1: an illegal word after reset raises ILLEGAL_CMD. -/
theorem test_illegal_word :
    engineAfter Engine.status (step (doing (machine Engine.reset []) (wr 0 .cmd 0x13))) = some 7 := by decide
/-- T-ERR-2: a command right after reset raises INVALID_KEY, on a machine of any platform. -/
theorem test_first_command_after_reset :
    engineAfter Engine.status (step (State.reset.withFetchWord 32 1)) = some 2 := by decide

/-! ### The hypotheses of the statements are met

One theorem for each statement of Certificates/Slice0/Obligations.lean that has hypotheses: a state and operands that
meet all of them, at the ends of each range a clause gives. -/

/-- A one-action program on the machine of T-IGE-1. -/
def act (a : HostAction) : State := doing (job engine) a

theorem ready_enc : Ready .igeEnc (job engine) engine := ⟨rfl, by decide, by decide⟩
theorem ready_dec : Ready .igeDec (job engine) engine := ⟨rfl, by decide, by decide⟩
theorem ready_ctr : Ready .ctrApply (job engine) engine := ⟨rfl, by decide, by decide⟩
theorem ige_ready : IgeReady (job engine) engine := ⟨rfl, by decide, by decide⟩
theorem ctr_ready : CtrReady (job engine) engine := ⟨rfl, by decide, by decide⟩
theorem job_wf : (job engine).mem.wf = true := by decide

/-- Each command answers a next state here. -/
theorem each_command_runs (i : Instr) : ∃ t, exec i (job engine) = .next t := by
  cases i with
  | igeEnc => exact ⟨_, exec_ready ready_enc⟩
  | igeDec => exact ⟨_, exec_ready ready_dec⟩
  | ctrApply => exact ⟨_, exec_ready ready_ctr⟩

/-- Each command leaves a state with the addressed instance in place. -/
theorem each_command_runs_with (i : Instr) :
    ∃ t f, exec i (job engine) = .next t ∧ t.engines[(job engine).target]? = some f := by
  cases i with
  | igeEnc => exact ⟨_, _, exec_ready ready_enc, rfl⟩
  | igeDec => exact ⟨_, _, exec_ready ready_dec, rfl⟩
  | ctrApply => exact ⟨_, _, exec_ready ready_ctr, rfl⟩

theorem witness_StepRunsTheDecodedCommand :
    ∃ s : State, s.engines[0]? = some engine ∧ s.pending = .regWrite 0 .word 0x70 3 :: [] ∧
      decode 3 = .ok .ctrApply := ⟨act (.regWrite 0 .word 0x70 3), rfl, rfl, by decide⟩

theorem witness_FetchedWordRunsNext :
    ∃ s : State, s.engines[0]? = some engine ∧ decodeTableWord 32 1 = some .igeEnc ∧
      decodeTableWord 32 3 = some .ctrApply := ⟨job engine, rfl, by decide, by decide⟩

theorem witness_IllegalWordRaisesIllegalCmd :
    ∀ v ∈ [(0x00000000 : Word), 0x00000004, 0xFFFFFFFF],
      (act (.regWrite 0 .word 0x70 v)).engines[0]? = some engine ∧
        (act (.regWrite 0 .word 0x70 v)).pending = .regWrite 0 .word 0x70 v :: [] ∧
        v ≠ 0x00000001 ∧ v ≠ 0x00000002 ∧ v ≠ 0x00000003 := by
  intro v hv
  refine ⟨rfl, rfl, ?_⟩
  simp only [List.mem_cons, List.not_mem_nil, or_false] at hv
  rcases hv with rfl | rfl | rfl <;> decide

theorem witness_ResetActionClearsEveryRegister : ∃ s : State, s.pending = .reset :: [] := ⟨act .reset, rfl⟩

/-- Words 0 and 7 of KEY and of IV. -/
theorem witness_WriteToKeyOrIvWord (v : Word) :
    ∀ w ∈ [(0 : Fin 8), 7], ∀ base ∈ [0, 0x20],
      ∃ s : State, s.engines[0]? = some engine ∧
        s.pending = .regWrite 0 .word (BitVec.ofNat 8 (base + 4 * w.val)) v :: [] :=
  fun _ _ _ _ => ⟨act _, rfl, rfl⟩

/-- Words 0 and 3 of CTR and of ECOUNT. -/
theorem witness_WriteToCtrOrEcountWord (v : Word) :
    ∀ w ∈ [(0 : Fin 4), 3], ∀ base ∈ [0x40, 0x50],
      ∃ s : State, s.engines[0]? = some engine ∧
        s.pending = .regWrite 0 .word (BitVec.ofNat 8 (base + 4 * w.val)) v :: [] :=
  fun _ _ _ _ => ⟨act _, rfl, rfl⟩

theorem witness_WriteToNumSrcDstLen (v : Word) :
    ∀ off ∈ [(0x60 : BitVec 8), 0x64, 0x68, 0x6C],
      ∃ s : State, s.engines[0]? = some engine ∧ s.pending = .regWrite 0 .word off v :: [] :=
  fun _ _ => ⟨act _, rfl, rfl⟩

/-- The ends of the ignored writes and of the reads as zero. -/
theorem witness_IgnoredWritesAndZeroReads (v : Word) :
    (∀ o ∈ [0x74, 0x78, 0x7C, 0xFC], (o ≤ 0xFC ∧ o % 4 = 0 ∧ 0x74 ≤ o) ∧
      ∃ s : State, s.engines[0]? = some engine ∧ s.pending = .regWrite 0 .word (BitVec.ofNat 8 o) v :: []) ∧
    ∀ o ∈ [0x00, 0x1C, 0x70, 0x7C, 0xFC], (o ≤ 0xFC ∧ o % 4 = 0 ∧ (o < 0x20 ∨ o = 0x70 ∨ 0x7C ≤ o)) ∧
      ∃ s : State, s.engines[0]? = some engine ∧ s.pending = .regRead 0 .word (BitVec.ofNat 8 o) :: [] := by
  refine ⟨fun o ho => ⟨?_, act _, rfl, rfl⟩, fun o ho => ⟨?_, act _, rfl, rfl⟩⟩ <;>
    (revert ho o; decide)

/-- The first and last word of IV, CTR and ECOUNT, each 32-bit register, and the ends of the reads as zero. -/
theorem witness_ReadsReturnTheRegister :
    ∀ off ∈ [(0x20 : BitVec 8), 0x3C, 0x40, 0x4C, 0x50, 0x5C, 0x60, 0x64, 0x68, 0x6C, 0x74, 0x78, 0x00, 0x1C, 0x70,
      0x7C, 0xFC], ∃ s : State, s.engines[0]? = some engine ∧ s.pending = .regRead 0 .word off :: [] :=
  fun _ _ => ⟨act _, rfl, rfl⟩

/-- A narrow and a wide access, and the misaligned offsets 0x01 and 0xFF. -/
theorem witness_WrongWidthOrAlignmentIsABusError :
    ∀ c ∈ [(AccessWidth.byte, (0x00 : BitVec 8)), (.half, 0x24), (.wide, 0xFC), (.word, 0x01), (.word, 0xFF)],
      (c.1 ≠ .word ∨ c.2.toNat % 4 ≠ 0) ∧
        (∃ s : State, s.engines[0]? = some engine ∧ s.pending = .regWrite 0 c.1 c.2 1 :: []) ∧
        ∃ s : State, s.engines[0]? = some engine ∧ s.pending = .regRead 0 c.1 c.2 :: [] := by
  intro c hc
  refine ⟨?_, ⟨act _, rfl, rfl⟩, act _, rfl, rfl⟩
  revert hc c
  decide

/-- A step that is no reset, with bits 0 and 23 of VALID set. -/
theorem witness_OnlyResetClearsValidBits :
    ∃ (s t : State) (e f : Engine), s.pending.head? ≠ some .reset ∧ step s = .next t ∧ s.engines[0]? = some e ∧
      t.engines[0]? = some f ∧ e.valid.getLsbD 0 = true ∧ e.valid.getLsbD 23 = true :=
  ⟨act (.regWrite 0 .word 0x60 5), _, engine, _, by decide, rfl, rfl, rfl, by decide, by decide⟩

/-- A step that is no CMD write, no overlapped commands and no reset. -/
theorem witness_OnlyCommandsAndResetWriteStatus :
    ∃ (s t : State) (e f : Engine), (∀ j v, s.pending.head? ≠ some (.regWrite j .word 0x70 v)) ∧
      (∀ cs os, s.pending.head? ≠ some (.overlapped cs os)) ∧ s.pending.head? ≠ some .reset ∧ step s = .next t ∧
      s.engines[0]? = some e ∧ t.engines[0]? = some f :=
  ⟨act (.regRead 0 .word 0x74), _, engine, _, fun _ _ h => (by cases h), fun _ _ h => (by cases h),
    fun h => (by cases h), rfl, rfl, rfl⟩

/-- A command, which writes no KEY word. -/
theorem witness_OnlyKeyWritesAndResetChangeKey :
    ∃ (s t : State) (e f : Engine),
      (∀ (w : Fin 8) v, s.pending.head? ≠ some (.regWrite 0 .word (BitVec.ofNat 8 (4 * w.val)) v)) ∧
      s.pending.head? ≠ some .reset ∧ step s = .next t ∧ s.engines[0]? = some e ∧ t.engines[0]? = some f :=
  ⟨act (.regRead 0 .word 0x20), _, engine, _, fun _ _ h => (by cases h), fun h => (by cases h), rfl, rfl, rfl⟩

/-- A register read and a load. -/
theorem witness_ReadsDoNotRevealTheKey :
    ∀ a ∈ [HostAction.regRead 0 .word 0x00, .load 0x1000 4],
      (act a).pending = a :: [] ∧ ((∃ j width off, a = .regRead j width off) ∨ (∃ x n, a = .load x n)) ∧
        (act a).engines[0]? = some engine ∧ ∃ t, step (act a) = .next t := by
  intro a ha
  simp only [List.mem_cons, List.not_mem_nil, or_false] at ha
  rcases ha with rfl | rfl
  · exact ⟨rfl, .inl ⟨_, _, _, rfl⟩, rfl, _, rfl⟩
  · exact ⟨rfl, .inr ⟨_, _, rfl⟩, rfl, _, rfl⟩

/-- A read, and a write to another offset than CMD's. -/
theorem witness_OnlyCmdWritesTouchMemory :
    (∃ s t : State, step s = .next t ∧ s.pending = .regRead 0 .word 0x70 :: []) ∧
      ∃ s t : State, step s = .next t ∧ s.pending = .regWrite 0 .word 0x6C 5 :: [] ∧ (0x6C : BitVec 8) ≠ 0x70 :=
  ⟨⟨act _, _, rfl, rfl⟩, act _, _, rfl, rfl, by decide⟩

theorem witness_IgeCommandsWriteOnlyOutputAndStatus (i : Instr) :
    (job engine).engines[(job engine).target]? = some engine ∧ ∃ t, exec i (job engine) = .next t :=
  ⟨rfl, each_command_runs i⟩

theorem witness_CtrApplyWritesOnlyOutputAndStream :
    (job engine).engines[(job engine).target]? = some engine ∧ ∃ t, exec .ctrApply (job engine) = .next t :=
  ⟨rfl, each_command_runs _⟩

theorem witness_NoCommandWritesSrcDstLen (i : Instr) :
    ∃ (s t : State) (e f : Engine), exec i s = .next t ∧ s.engines[s.target]? = some e ∧
      t.engines[s.target]? = some f := by
  obtain ⟨t, f, h, hf⟩ := each_command_runs_with i
  exact ⟨_, t, engine, f, h, rfl, hf⟩

/-- A command that ends with an error code. -/
theorem witness_ErrorsAreFailFast (i : Instr) :
    ∃ (s t : State) (e f : Engine), exec i s = .next t ∧ s.engines[s.target]? = some e ∧
      t.engines[s.target]? = some f ∧ f.status ≠ 0 := by
  refine ⟨job Engine.reset, setEngine (job Engine.reset) 0 (setErr Engine.reset .invalidKey), Engine.reset,
    setErr Engine.reset .invalidKey, ?_, rfl, rfl, by decide⟩
  cases i <;> rfl

theorem witness_CodesOfEachCommand (i : Instr) :
    ∃ (s t : State) (f : Engine), exec i s = .next t ∧ t.engines[s.target]? = some f := by
  obtain ⟨t, f, h, hf⟩ := each_command_runs_with i
  exact ⟨_, t, f, h, hf⟩

/-- For each branch of the checks, an engine and a word that reach it. -/
theorem witness_ChecksRunInOrder :
    (∀ (e : Engine) (v : Word), ∃ s : State, s.engines[0]? = some e ∧ s.pending = .regWrite 0 .word 0x70 v :: []) ∧
      ((0x00000004 : Word) ≠ 1 ∧ (0x00000004 : Word) ≠ 2 ∧ (0x00000004 : Word) ≠ 3) ∧
      check .igeDec { engine with valid := 0x00FFFF7F } = .invalidKey ∧
      check .igeEnc { engine with valid := 0x00FF7FFF } = .invalidLength ∧
      check .igeDec { engine with len := 15 } = .invalidLength ∧
      check .ctrApply { engine with num := 16 } = .invalidState ∧
      check .ctrApply { engine with valid := 0x00F7FFFF } = .invalidState ∧
      check .ctrApply { engine with num := 15, valid := 0x007FFFFF } = .invalidState ∧
      check .igeEnc { engine with src := 0xFFFFFFF1, len := 16 } = .range ∧
      check .igeEnc { engine with dst := 0x100F, len := 16 } = .overlap ∧
      check .igeEnc { engine with dst := 0x1010, len := 16 } = .ok ∧
      check .ctrApply { engine with num := 15 } = .ok := by
  refine ⟨fun e v => ⟨doing (job e) _, rfl, rfl⟩, ?_⟩
  decide

theorem witness_UnwrittenKeyRaisesInvalidKey :
    ∃ (s : State) (e : Engine), s.engines[s.target]? = some e ∧ e.valid.extractLsb' 0 8 ≠ 0xFF :=
  ⟨job { engine with valid := 0x00FFFF7F }, _, rfl, by decide⟩

/-- Each of the three cases, at LEN = 15 and 17 for the last. -/
theorem witness_BadLengthOrIvRaisesInvalidLength :
    ∀ e ∈ [{ engine with valid := 0x00FF7FFF }, { engine with len := 0 }, { engine with len := 15 },
        { engine with len := 17 }],
      (job e).engines[(job e).target]? = some e ∧ e.valid.extractLsb' 0 8 = 0xFF ∧
        (e.valid.extractLsb' 8 8 ≠ 0xFF ∨ e.len.toNat = 0 ∨ e.len.toNat % 16 ≠ 0) := by
  intro e he
  refine ⟨rfl, ?_⟩
  revert he e
  decide

/-- Each of the three cases, at NUM = 16, and at NUM = 1 and 15 for the last. -/
theorem witness_BadStreamStateRaisesInvalidState :
    ∀ e ∈ [{ engine with num := 16 }, { engine with valid := 0x00F7FFFF },
        { engine with num := 1, valid := 0x007FFFFF }, { engine with num := 15, valid := 0x000FFFFF }],
      (job e).engines[(job e).target]? = some e ∧ e.valid.extractLsb' 0 8 = 0xFF ∧
        (16 ≤ e.num.toNat ∨ e.valid.extractLsb' 16 4 ≠ 0xF ∨
          (e.num.toNat ≠ 0 ∧ e.valid.extractLsb' 20 4 ≠ 0xF)) := by
  intro e he
  refine ⟨rfl, ?_⟩
  revert he e
  decide

/-- A source and a destination one byte past 2^32, for every command. -/
theorem witness_BufferPastTopRaisesRange (i : Instr) :
    ∀ e ∈ [{ engine with src := 0xFFFFFFF1, len := 16 }, { engine with dst := 0xFFFFFFF1, len := 16 }],
      (job e).engines[(job e).target]? = some e ∧ OperandsPass i e ∧ 0 < e.len.toNat ∧
        (2 ^ 32 < e.src.toNat + e.len.toNat ∨ 2 ^ 32 < e.dst.toNat + e.len.toNat) := by
  intro e he
  refine ⟨rfl, ?_⟩
  revert he e
  cases i <;> decide

/-- Buffers that share their last or first byte, for every command. -/
theorem witness_PartialOverlapRaisesOverlap (i : Instr) :
    ∀ e ∈ [{ engine with dst := 0x100F, len := 16 }, { engine with dst := 0x0FF1, len := 16 }],
      (job e).engines[(job e).target]? = some e ∧ OperandsPass i e ∧ e.src.toNat + e.len.toNat ≤ 2 ^ 32 ∧
        e.dst.toNat + e.len.toNat ≤ 2 ^ 32 ∧ 0 < e.len.toNat ∧ e.src ≠ e.dst ∧
        e.src.toNat < e.dst.toNat + e.len.toNat ∧ e.dst.toNat < e.src.toNat + e.len.toNat := by
  intro e he
  refine ⟨rfl, ?_⟩
  revert he e
  cases i <;> decide

/-- A served job, and one whose output ends in a register window, for every command. -/
theorem witness_StuckExactlyOnUnservedBuffers (i : Instr) :
    ∀ e ∈ [engine, { engine with dst := 0x3FFFFFF1 , len := 16 }],
      (job e).engines[(job e).target]? = some e ∧ Preconditions i e := by
  intro e he
  refine ⟨rfl, ?_⟩
  simp only [List.mem_cons, List.not_mem_nil, or_false] at he
  rcases he with rfl | rfl <;> cases i <;> decide

/-- SRC = 0x10, the last address at which the largest LEN is in range. -/
theorem witness_LargestIgeLengthIsStuck :
    ∃ (s : State) (e : Engine), s.engines[s.target]? = some e ∧ e.valid.extractLsb' 0 8 = 0xFF ∧
      e.valid.extractLsb' 8 8 = 0xFF ∧ e.len = 0xFFFFFFF0 ∧ e.src.toNat ≤ 0x10 ∧ e.dst = e.src :=
  ⟨job { engine with src := 0x10, dst := 0x10, len := 0xFFFFFFF0 }, _, rfl, by decide, by decide, rfl, by decide, rfl⟩

theorem witness_IgeEncCompletesWithTheChain : (job engine).mem.wf = true ∧ IgeReady (job engine) engine :=
  ⟨job_wf, ige_ready⟩

/-- The last block of the address space, in place. -/
theorem witness_IgeDecCompletesWithTheChain :
    ∃ (s : State) (e : Engine), s.mem.wf = true ∧ IgeReady s e :=
  ⟨job { engine with src := 0xFFFFFFF0, dst := 0xFFFFFFF0, len := 16 }, _, by decide, rfl, by decide, by decide⟩

theorem witness_IgeRoundTrip :
    ∃ f : Engine, (job engine).mem.wf = true ∧ IgeReady (job engine) engine ∧ IgePreconditions f ∧
      buffersServed (job engine).platform f = true ∧ f.key = engine.key ∧ f.iv = engine.iv ∧ f.len = engine.len ∧
      f.src = engine.dst :=
  ⟨{ engine with src := 0x2000, dst := 0x2000 }, job_wf, ige_ready, by decide, by decide, rfl, rfl, rfl, rfl⟩

/-- From a disjoint output buffer and in place. -/
theorem witness_IgeOutputIndependentOfPlacement :
    ∃ (s' : State) (e' : Engine), (job engine).mem.wf = true ∧ s'.mem.wf = true ∧ IgeReady (job engine) engine ∧
      IgeReady s' e' ∧ e'.key = engine.key ∧ e'.iv = engine.iv ∧ e'.len = engine.len ∧
      ∀ q < engine.len.toNat,
        readByte s'.mem (e'.src.toNat + q) = readByte (job engine).mem (engine.src.toNat + q) :=
  ⟨job { engine with dst := 0x1000 }, _, job_wf, by decide, ige_ready, ⟨rfl, by decide, by decide⟩, rfl, rfl, rfl,
    fun _ _ => rfl⟩

theorem witness_IgeContinuation :
    (job engine).mem.wf = true ∧ IgeReady (job engine) engine ∧ 0 < 1 ∧ 16 * 1 < engine.len.toNat :=
  ⟨job_wf, ige_ready, by decide, by decide⟩

/-- The second input block changed. -/
theorem witness_IgeErrorPropagation :
    ∃ m : Memory, (job engine).mem.wf = true ∧ m.wf = true ∧ IgeReady (job engine) engine ∧
      1 < engine.len.toNat / 16 ∧
      (∀ n < engine.len.toNat / 16, n ≠ 1 →
        readBlock m (engine.src.toNat + 16 * n) = readBlock (job engine).mem (engine.src.toNat + 16 * n)) ∧
      readBlock m (engine.src.toNat + 16 * 1) ≠ readBlock (job engine).mem (engine.src.toNat + 16 * 1) :=
  ⟨writeByte (job engine).mem 0x1010 0, job_wf, wf_writeByte job_wf (by decide), ige_ready, by decide,
    fun n hn h1 => readBlock_congr fun i hi => readByte_writeByte_other (by
      have h32 : engine.len.toNat / 16 = 2 := by decide
      have hs : engine.src.toNat = 0x1000 := by decide
      omega),
    fun h => absurd (congrArg (fun b => b[0]) h) (by
      simp only [getElem_readBlock]
      decide)⟩

/-- NUM = 0, and NUM = 15 with a buffer that ends at 2^32. -/
theorem witness_CtrApplyCompletesInClosedForm :
    ((job engine).mem.wf = true ∧ CtrReady (job engine) engine) ∧
      ∃ (s : State) (e : Engine), s.mem.wf = true ∧ CtrReady s e :=
  ⟨⟨job_wf, ctr_ready⟩, job { engine with src := 0xFFFFFFE0, num := 15 }, _, by decide, rfl, by decide, by decide⟩

theorem witness_ZeroLengthCtrChangesOnlyStatus :
    ∃ (s : State) (e : Engine), s.engines[s.target]? = some e ∧ CtrPreconditions e ∧ e.len = 0 :=
  ⟨job { engine with len := 0, dst := 0x1008 }, _, rfl, by decide, rfl⟩

/-- Buffers of 1 and of 16 bytes. -/
theorem witness_CounterWrapsWithoutError :
    ∀ e ∈ [{ engine with ctr := Vector.replicate 16 0xFF, len := 1 },
        { engine with ctr := Vector.replicate 16 0xFF, len := 16 }],
      CtrReady (job e) e ∧ e.num = 0 ∧ 0 < e.len.toNat ∧ e.len.toNat ≤ 16 ∧ e.ctr = Vector.replicate 16 0xFF := by
  intro e he
  simp only [List.mem_cons, List.not_mem_nil, or_false] at he
  rcases he with rfl | rfl <;> exact ⟨⟨rfl, by decide, by decide⟩, by decide⟩

theorem witness_CtrApplyTwiceIsIdentity :
    ∃ f : Engine, (job engine).mem.wf = true ∧ CtrReady (job engine) engine ∧ CtrPreconditions f ∧
      buffersServed (job engine).platform f = true ∧ f.key = engine.key ∧ f.ctr = engine.ctr ∧
      f.ecount = engine.ecount ∧ f.num = engine.num ∧ f.len = engine.len ∧ f.src = engine.dst :=
  ⟨{ engine with src := 0x2000, dst := 0x2000 }, job_wf, ctr_ready, by decide, by decide, rfl, rfl, rfl, rfl, rfl, rfl⟩

/-- Either piece may be empty. -/
theorem witness_CtrApplyResumes :
    CtrReady (job engine) engine ∧ ∀ j ∈ [0, 5, 32], j ≤ engine.len.toNat := ⟨ctr_ready, by decide⟩

theorem witness_ExhaustedCacheIsNotUsed :
    CtrReady (job engine) engine ∧ engine.num = 0 ∧ 0 < engine.len.toNat := ⟨ctr_ready, rfl, by decide⟩

/-- The last byte of the address space. -/
theorem witness_HostLoadAfterStore :
    ∃ s : State, s.mem.wf = true ∧ s.pending = .store 0xFFFFFFFF [7] :: .load 0xFFFFFFFF 1 :: [] ∧
      (0xFFFFFFFF : Word).toNat + [(7 : Byte)].length ≤ 2 ^ 32 ∧
      rangeAll (fun x => !inWindow s.platform x) (0xFFFFFFFF : Word).toNat 1 = true :=
  ⟨{ job engine with pending := [.store 0xFFFFFFFF [7], .load 0xFFFFFFFF 1] }, by decide, rfl, by decide, by decide⟩

theorem witness_InstancesAreIsolated (i : Instr) :
    ∃ (s t : State) (l : List Engine), exec i s = .next t ∧ l[s.target]? = s.engines[s.target]? := by
  obtain ⟨t, h⟩ := each_command_runs i
  exact ⟨_, t, [engine, engine, engine], h, rfl⟩

/-- A write to the last byte of the input and the first of the output buffer, and a read of its last. -/
theorem witness_AgentInABufferIsARace (i : Instr) :
    ∃ os, os = [AgentEvent.write 0x101F 0, .write 0x2000 0, .read 0x201F] ∧
      (act (.overlapped [(0, encode i)] os)).pending = .overlapped [(0, encode i)] os :: [] ∧
      (0, encode i) ∈ [(0, encode i)] ∧
      (act (.overlapped [(0, encode i)] os)).engines[0]? = some engine ∧ Preconditions i engine ∧
      AgentEvent.reset ∉ os ∧ AgentEvent.write 0x101F 0 ∈ os ∧ AgentEvent.write 0x2000 0 ∈ os ∧
      AgentEvent.read 0x201F ∈ os ∧ InBuffer 0x101F engine.src.toNat engine.len.toNat ∧
      InBuffer 0x2000 engine.dst.toNat engine.len.toNat ∧ InBuffer 0x201F engine.dst.toNat engine.len.toNat := by
  refine ⟨_, rfl, rfl, List.mem_singleton_self _, rfl, ?_⟩
  cases i <;> decide

/-- The last output byte of one instance is the first input byte, or the first output byte, of the other. -/
theorem witness_ConflictingInstancesAreARace (i i' : Instr) :
    ∀ f ∈ [{ engine with src := 0x201F, dst := 0x3000 }, { engine with src := 0x3000, dst := 0x201F }],
      ∃ s : State, s.pending = .overlapped [(0, encode i), (1, encode i')] [] :: [] ∧
        (0, encode i) ∈ [(0, encode i), (1, encode i')] ∧ (1, encode i') ∈ [(0, encode i), (1, encode i')] ∧
        (0 : Nat) ≠ 1 ∧ AgentEvent.reset ∉ ([] : List AgentEvent) ∧
        s.engines[0]? = some engine ∧ s.engines[1]? = some f ∧ Preconditions i engine ∧ Preconditions i' f ∧
        InBuffer 0x201F engine.dst.toNat engine.len.toNat ∧
        (InBuffer 0x201F f.src.toNat f.len.toNat ∨ InBuffer 0x201F f.dst.toNat f.len.toNat) := by
  intro f hf
  refine ⟨{ act (.overlapped [(0, encode i), (1, encode i')] []) with engines := [engine, f] }, rfl, ?_⟩
  have h : Preconditions i engine := by cases i <;> decide
  simp only [List.mem_cons, List.not_mem_nil, or_false] at hf
  rcases hf with rfl | rfl <;>
    exact ⟨by simp, by simp, by decide, by decide, rfl, rfl, h, by cases i' <;> decide, by decide, by decide⟩

/-- A command of instance 0 that runs beside one of instance 1 that fails. -/
theorem witness_ConcurrentCommandsCommute :
    ∃ (t u : State), (job engine).mem.wf = true ∧ (0 : Nat) ≠ 1 ∧ races (job engine) [(0, 3), (1, 1)] [] = false ∧
      overlapped [(0, 3), (1, 1)] [] (job engine) = .next t ∧ overlapped [(1, 1), (0, 3)] [] (job engine) = .next u :=
  ⟨_, _, job_wf, by decide, by decide, rfl, rfl⟩

theorem witness_ResetInsideACommandIsRefused :
    ∃ s : State, s.pending = .overlapped [(0, 1)] [.reset] :: [] ∧ AgentEvent.reset ∈ [AgentEvent.reset] :=
  ⟨act _, rfl, by decide⟩

theorem witness_IdleAtTheEndOfTheProgram : ∃ s : State, s.pending = [] := ⟨job engine, rfl⟩

theorem job_legal : (job engine).Legal := ⟨by decide, by unfold StatusesLegal; decide, by unfold ValidsLegal; decide, rfl⟩

theorem witness_EveryStepKeepsTheMachineLegal :
    ∃ s t : State, s.Legal ∧ step s = .next t :=
  ⟨act (.store 0x1000 [1, 2]), _, ⟨job_legal.1, job_legal.2, job_legal.3, job_legal.4⟩, rfl⟩

theorem witness_EveryStepKeepsPlatformAndHistory : ∃ s t : State, step s = .next t :=
  ⟨act (.load 0x1000 4), _, rfl⟩

end Sys2Proof.Tests
end

section
/-!
PROOFS. Rules about single host actions that the statements of spec/10_state.md share: what each access answers,
what a command leaves of an engine, and what a register write does to VALID.
-/

namespace Sys2Proof.Machine

/-! ### Register accesses -/

/-- Everything a register read answers (R44). -/
theorem regRead_next_iff {k : Nat} {width : AccessWidth} {off : BitVec 8} {s t : State} :
    regRead k width off s = .next t ↔
      ∃ e r, access s k width off = .ok (e, r) ∧ t = observe s (.word (readReg e r)) := by
  rw [regRead]
  split <;> rename_i ha
  · simp [ha]
  · simp [ha, eq_comm]

/-- Everything a register write answers (R43): the outcome of the command, or the written register. -/
theorem regWrite_next {k : Nat} {width : AccessWidth} {off : BitVec 8} {v : Word} {s t : State}
    (h : regWrite k width off v s = .next t) :
    (width = .word ∧ off = 0x70 ∧ cmdWrite k v s = .next t) ∨
      ∃ e r, s.engines[k]? = some e ∧ t = setEngine s k (writeReg e v r) := by
  rw [regWrite] at h
  split at h
  · cases h
  · rename_i e r ha
    obtain ⟨he, hw, hr⟩ := access_ok.1 ha
    split_ifs at h with hc
    · subst hc
      exact .inl ⟨hw, (offsetOf_regAt hr).symm, h⟩
    · cases h
      exact .inr ⟨e, r, he, rfl⟩

/-- The window answers a wrong width or a misaligned offset with a bus error (R46). -/
theorem access_busError {s : State} {k : Nat} {e : Engine} {width : AccessWidth} {off : BitVec 8}
    (he : s.engines[k]? = some e) (h : width ≠ .word ∨ off.toNat % 4 ≠ 0) :
    access s k width off = .error (.busError k off) := by
  simp only [access, he]
  by_cases hw : width = .word
  · rw [if_neg (not_not.2 hw), (regAt_none_iff off).2 (h.resolve_left (not_not.2 hw))]
  · rw [if_pos hw]

/-- An access looks at the addressed engine only to hand it over. -/
theorem access_congr {s s' : State} {k : Nat} {width : AccessWidth} {off : BitVec 8} {e e' : Engine} {r : Reg}
    (h : access s k width off = .ok (e, r)) (he' : s'.engines[k]? = some e') :
    access s' k width off = .ok (e', r) :=
  access_ok.2 ⟨he', (access_ok.1 h).2⟩

/-- Every aligned offset above that of CMD is that of a register that ignores writes (R39). -/
theorem exists_readOnly_reg {o : Nat} (h : o ≤ 0xFC) (h4 : o % 4 = 0) (hlo : 0x74 ≤ o) :
    ∃ r, offsetOf r = BitVec.ofNat 8 o ∧ r ≠ .cmd ∧ ∀ e v, writeReg e v r = e := by
  rcases (by omega : o = 0x74 ∨ o = 0x78 ∨ 0x7C ≤ o) with rfl | rfl | ho
  · exact ⟨.status, rfl, by decide, fun _ _ => rfl⟩
  · exact ⟨.valid, rfl, by decide, fun _ _ => rfl⟩
  · refine ⟨.reserved ⟨(o - 0x7C) / 4, by omega⟩, ?_, by simp, fun _ _ => rfl⟩
    rw [offsetOf, show 0x7C + 4 * ((o - 0x7C) / 4) = o by omega]

/-- The aligned offsets of KEY, of CMD and above VALID are those of registers that read 0 (R39, R44). -/
theorem exists_zeroRead_reg {o : Nat} (h : o ≤ 0xFC) (h4 : o % 4 = 0) (ho : o < 0x20 ∨ o = 0x70 ∨ 0x7C ≤ o) :
    ∃ r, offsetOf r = BitVec.ofNat 8 o ∧ ∀ e, readReg e r = 0 := by
  rcases ho with ho | rfl | ho
  · refine ⟨.key ⟨o / 4, by omega⟩, ?_, fun _ => rfl⟩
    rw [offsetOf, show 4 * (o / 4) = o by omega]
  · exact ⟨.cmd, rfl, fun _ => rfl⟩
  · refine ⟨.reserved ⟨(o - 0x7C) / 4, by omega⟩, ?_, fun _ => rfl⟩
    rw [offsetOf, show 0x7C + 4 * ((o - 0x7C) / 4) = o by omega]

/-- A 32-bit read of a KEY word, of CMD or of a reserved offset, as a step. -/
theorem step_read_zero {s : State} {k : Nat} {e : Engine} {o : Nat} {rest : List HostAction}
    (he : s.engines[k]? = some e) (h : o ≤ 0xFC) (h4 : o % 4 = 0) (ho : o < 0x20 ∨ o = 0x70 ∨ 0x7C ≤ o)
    (hp : s.pending = .regRead k .word (BitVec.ofNat 8 o) :: rest) :
    step s = .next (observe (advance s rest) (.word 0)) := by
  obtain ⟨r, hr, hz⟩ := exists_zeroRead_reg h h4 ho
  rw [step_read r he hr hp, hz]

/-- The bytes and VALID bits after word `w` of a byte register is written, with its VALID bit `b`. -/
theorem setWord_setValidBit_spec {n : Nat} (r : Bytes n) {w : Nat} (h : 4 * w + 3 < n) (v valid : Word) (b : Nat) :
    (∀ j < 4, byteAt (setWord r w v) (4 * w + j) = v.extractLsb' (8 * j) 8) ∧
      (∀ i < n, i / 4 ≠ w → byteAt (setWord r w v) i = byteAt r i) ∧
      ∀ m < 32, (setValidBit valid b).getLsbD m = (valid.getLsbD m || decide (m = b)) :=
  ⟨fun _ hj => setWord_lane r w v hj h, fun _ _ hi => setWord_other r v hi, fun _ hm => setValidBit_bit valid b hm⟩

/-! ### Memory accesses -/

/-- Everything a load answers. -/
theorem hostLoad_next_iff {a n : Nat} {s t : State} :
    hostLoad a n s = .next t ↔
      memoryAccess s.platform a n = .ok () ∧ t = observe s (.bytes (readList s.mem a n)) := by
  rw [hostLoad]
  split <;> rename_i ha
  · simp [ha]
  · simp [ha, eq_comm]

/-- A store replaces system memory and nothing else. -/
theorem hostStore_next {a : Nat} {bs : List Byte} {s t : State} (h : hostStore a bs s = .next t) :
    ∃ m, t = setMem s m := by
  rw [hostStore] at h
  split at h
  · cases h
  · cases h
    exact ⟨_, rfl⟩

/-! ### Commands -/

/-- A CMD write of a word that decodes runs the command on the engine written to (R93). -/
theorem cmdWrite_of_decode {s : State} {k : Nat} {e : Engine} {v : Word} {i : Instr} (he : s.engines[k]? = some e)
    (hd : decode v = .ok i) : cmdWrite k v s = exec i (selectEngine s k) := by
  simp only [cmdWrite, he, hd]

theorem decode_of_decodeTableWord {w : Nat} {i : Instr} (h : decodeTableWord 32 w = some i) :
    decode (BitVec.ofNat 32 (w % 2 ^ 32)) = .ok i := by
  rw [decodeTableWord, if_pos (Nat.le_refl 32)] at h
  cases hd : decode (BitVec.ofNat 32 (w % 2 ^ 32)) with
  | error c => rw [hd] at h; cases h
  | ok j => rw [hd] at h; cases h; rfl

/-- What a command's operation leaves of the registers that no command writes (R27, R32). -/
theorem operation_keeps_operands (i : Instr) (e : Engine) (m : Memory) :
    (operation i e m).1.key = e.key ∧ (operation i e m).1.src = e.src ∧ (operation i e m).1.dst = e.dst ∧
      (operation i e m).1.len = e.len := by
  cases i with
  | igeEnc => exact ⟨rfl, rfl, rfl, rfl⟩
  | igeDec => exact ⟨rfl, rfl, rfl, rfl⟩
  | ctrApply =>
    have h := sameOperands_ctrLoop (Config.cipher e.key) e.len.toNat e.src.toNat e.dst.toNat e.num.toNat e m
    exact ⟨h.key, h.src, h.dst, h.len⟩

/-- A command with a byte to process regenerates the cache first where it is exhausted, whatever it holds (R35). -/
theorem ctrLoop_exhausted_cache (f : Block → Block) {k : Nat} (hk : 0 < k) (src dst : Nat) (e : Engine) (b : Block)
    (m : Memory) : ctrLoop f k src dst 0 { e with ecount := b } m = ctrLoop f k src dst 0 e m := by
  obtain ⟨k, rfl⟩ := Nat.exists_eq_succ_of_ne_zero hk.ne'
  have hr : refill f 0 { e with ecount := b } = refill f 0 e := rfl
  rw [ctrLoop, ctrLoop, hr]

theorem operation_ctrApply_exhausted_cache {e : Engine} (hn : e.num = 0) (hl : 0 < e.len.toNat) (b : Block)
    (m : Memory) : operation .ctrApply { e with ecount := b } m = operation .ctrApply e m := by
  have hn' : e.num.toNat = 0 := by rw [hn]; rfl
  simp only [operation, ctrApplyOp, hn',
    ctrLoop_exhausted_cache (Config.cipher e.key) hl e.src.toNat e.dst.toNat e b m]

/-- A command is one update of its own engine and of memory, the same whatever the other engines hold (R49). -/
theorem exec_next_other_engines {i : Instr} {s t : State} (h : exec i s = .next t) :
    ∃ e f m, s.engines[s.target]? = some e ∧ t = setMem (setEngine s s.target f) m ∧
      ∀ l : List Engine, l[s.target]? = s.engines[s.target]? →
        exec i { s with engines := l } = .next (setMem (setEngine { s with engines := l } s.target f) m) := by
  rw [exec_eq] at h
  obtain ⟨e, he, ⟨hc, rfl⟩ | ⟨hr, rfl⟩⟩ := runCommand_next h
  · exact ⟨e, _, s.mem, he, rfl, fun l hl => exec_fails (hl.trans he) hc⟩
  · exact ⟨e, _, _, he, rfl, fun l hl => exec_ready ⟨hl.trans he, hr.2⟩⟩

/-! ### VALID and reset -/

theorem validLegal_writeReg {e : Engine} {v : Word} {r : Reg} (h : validLegal e.valid = true) :
    validLegal (writeReg e v r).valid = true := by
  cases r with
  | key w | iv w | ctr w | ecount w => exact validLegal_setValidBit h (by omega)
  | _ => exact h

theorem validLegal_operation {i : Instr} {e : Engine} (m : Memory) (hc : check i e = .ok)
    (h : validLegal e.valid = true) : validLegal (operation i e m).1.valid = true := by
  cases i with
  | igeEnc => exact h
  | igeDec => exact h
  | ctrApply =>
    rw [operation_ctrApply_engine m hc]
    dsimp only
    split_ifs
    · exact h
    · exact validLegal_setEcV h

/-- The tabled reset values of R48. -/
theorem registers_of_eq_reset {e : Engine} (h : e = Engine.reset) :
    e.key = Vector.replicate 32 0 ∧ e.iv = Vector.replicate 32 0 ∧ e.ctr = Vector.replicate 16 0 ∧
      e.ecount = Vector.replicate 16 0 ∧ e.num = 0 ∧ e.src = 0 ∧ e.dst = 0 ∧ e.len = 0 ∧ e.status = 0 ∧
      e.valid = 0 := by
  subst h
  exact ⟨rfl, rfl, rfl, rfl, rfl, rfl, rfl, rfl, rfl, rfl⟩

theorem eq_reset_of_mem_resetEngines {s : State} {e : Engine} (h : e ∈ (resetEngines s).engines) :
    e = Engine.reset := by
  obtain ⟨_, _, rfl⟩ := List.mem_map.1 h
  rfl

theorem eq_reset_of_mem_resetOn {p : Platform} {e : Engine} (h : e ∈ (State.resetOn p).engines) :
    e = Engine.reset := by
  obtain ⟨_, _, rfl⟩ := List.mem_map.1 h
  rfl

@[simp] theorem resetEngines_length (s : State) : (resetEngines s).engines.length = s.engines.length :=
  List.length_map _

end Sys2Proof.Machine
end

section
/-!
PROOFS. The statements about the invariants of every step (tier 3 first), each from one relation or predicate
that the primitive updates keep.
-/

namespace Sys2Proof.Machine

/-! ### The machine stays legal -/

theorem State.Legal.kept : Kept State.Legal where
  select _ h := ⟨h.memory, h.statuses, h.valids, h.engines⟩
  observe _ h := ⟨h.memory, h.statuses, h.valids, h.engines⟩
  error {_ _ e} _ hc he h := h.setEngine (statusLegal_statusOf hc) (h.valids e (List.mem_of_getElem? he))
  command {i s e} hr h := by
    obtain ⟨he, hc, _⟩ := hr
    have hv := h.valids _ (List.mem_of_getElem? he)
    have ht := h.setEngine (k := s.target) (f := setErr (operation i e s.mem).1 .ok)
      (statusLegal_statusOf (by decide)) (validLegal_operation s.mem hc hv)
    exact ⟨wf_operation h.memory hc, ht.statuses, ht.valids, ht.engines⟩
  store _ _ hb h := ⟨wf_writeList h.memory hb, h.statuses, h.valids, h.engines⟩

theorem State.Legal.keepsWrite (a : HostAction) : KeepsWrite State.Legal a := by
  intro s k off v e r _ he _ _ h
  have hmem := List.mem_of_getElem? he
  exact h.setEngine (by rw [writeReg_status]; exact h.statuses e hmem) (validLegal_writeReg (h.valids e hmem))

theorem State.Legal.resetEngines {s : State} (h : s.Legal) : (resetEngines s).Legal where
  memory := h.memory
  statuses e he := by rw [eq_reset_of_mem_resetEngines he]; decide
  valids e he := by rw [eq_reset_of_mem_resetEngines he]; decide
  engines := (resetEngines_length s).trans h.engines

/-- Settles O52: every primitive update, register write and reset keeps a legal machine legal. -/
theorem everyStepKeepsTheMachineLegal : Obligations.EveryStepKeepsTheMachineLegal :=
  fun _ _ hs ht => State.Legal.kept.step (fun _ h => ⟨h.memory, h.statuses, h.valids, h.engines⟩)
    (fun a _ => State.Legal.keepsWrite a) (fun _ _ h => h.resetEngines) ht hs

/-- Settles O8: after reset every register is zero and memory lists no byte. -/
theorem resetStateIsLegal : Obligations.ResetStateIsLegal where
  memory := rfl
  statuses e he := by rw [eq_reset_of_mem_resetOn he]; decide
  valids e he := by rw [eq_reset_of_mem_resetOn he]; decide
  engines := List.length_map _

/-! ### Platform and history -/

/-- From `s0` to `s` the platform, the number of engines and the host program are the same, and the values
bound at `s0` are a beginning of those bound at `s`. -/
structure SameHistory (s0 s : State) : Prop where
  platform : s.platform = s0.platform
  count : s.engines.length = s0.engines.length
  observed : s0.observed <+: s.observed
  pending : s.pending = s0.pending
  pos : s.pos = s0.pos

theorem SameHistory.refl (s : State) : SameHistory s s := ⟨rfl, rfl, List.prefix_refl _, rfl, rfl⟩

theorem SameHistory.setEngine {s0 s : State} (h : SameHistory s0 s) (k : Nat) (f : Engine) :
    SameHistory s0 (setEngine s k f) :=
  ⟨h.platform, (List.length_set ..).trans h.count, h.observed, h.pending, h.pos⟩

theorem SameHistory.setMem {s0 s : State} (h : SameHistory s0 s) (m : Memory) : SameHistory s0 (setMem s m) :=
  ⟨h.platform, h.count, h.observed, h.pending, h.pos⟩

theorem SameHistory.kept (s0 : State) : Kept (SameHistory s0) where
  select _ h := ⟨h.platform, h.count, h.observed, h.pending, h.pos⟩
  observe _ h := ⟨h.platform, h.count, h.observed.trans (List.prefix_append _ _), h.pending, h.pos⟩
  error _ _ _ h := h.setEngine _ _
  command _ h := (h.setEngine _ _).setMem _
  store _ _ _ h := h.setMem _

theorem SameHistory.perform {a : HostAction} {s t : State} (h : perform a s = .next t) : SameHistory s t :=
  (SameHistory.kept s).perform (fun _ _ _ _ _ _ _ _ _ _ hs => hs.setEngine _ _)
    (fun _ hs => ⟨hs.platform, (resetEngines_length s).trans hs.count, hs.observed, hs.pending, hs.pos⟩) h
    (SameHistory.refl s)

/-- Settles O53: the step takes one action off the program, and the action itself keeps platform and history. -/
theorem everyStepKeepsPlatformAndHistory : Obligations.EveryStepKeepsPlatformAndHistory := by
  intro s t h
  cases hp : s.pending with
  | nil =>
    rw [step_nil hp] at h
    cases h
    exact ⟨rfl, rfl, ⟨[], (List.append_nil _).symm⟩, hp, by rw [hp]⟩
  | cons a rest =>
    rw [step_cons hp] at h
    have ht := SameHistory.perform h
    obtain ⟨new, hnew⟩ := ht.observed
    refine ⟨ht.platform, ht.count, ⟨new, hnew.symm⟩, ht.pending, ?_⟩
    rw [ht.pending, ht.pos, advance_pos, advance_pending, List.length_cons]
    omega

/-! ### Registers that only some actions write -/

/-- Engine `j` has kept its KEY, if it is engine `k`. -/
def SameKeyAt (k j : Nat) (a b : Engine) : Prop := j = k → b.key = a.key

theorem SameKeyAt.trans {k : Nat} (j : Nat) (a b c : Engine) (h1 : SameKeyAt k j a b) (h2 : SameKeyAt k j b c) :
    SameKeyAt k j a c :=
  fun hj => (h2 hj).trans (h1 hj)

theorem SameKeyAt.kept (k : Nat) (s0 : State) : Kept (EachRelated (SameKeyAt k) s0) :=
  EachRelated.kept SameKeyAt.trans s0 (fun _ _ _ _ => rfl) fun _ i e m _ _ => (operation_keeps_operands i e m).1

/-- Settles O17: errors and commands keep KEY, and a register write changes it only at the offset of a KEY word. -/
theorem onlyKeyWritesAndResetChangeKey : Obligations.OnlyKeyWritesAndResetChangeKey := by
  intro s t k e f hkey hreset ht he hf
  have hw : ∀ a ∈ s.pending.head?, KeepsWrite (EachRelated (SameKeyAt k) s) a := by
    intro a ha u j off v e r hav hu hr _ h
    refine EachRelated.setEngine SameKeyAt.trans hu (fun hj => writeReg_key e v fun w hrw => ?_) h
    subst hav hj hrw
    exact hkey w v (ha.trans (by rw [← offsetOf_regAt hr]; rfl))
  have hrel := (SameKeyAt.kept k s).step (fun _ h => h) hw (fun h => absurd h hreset) ht
    (EachRelated.refl (fun _ _ _ => rfl) s)
  exact hrel k e f he hf rfl

/-- SRC, DST and LEN are the same in two contents of an engine. -/
def SameBuffers (a b : Engine) : Prop := b.src = a.src ∧ b.dst = a.dst ∧ b.len = a.len

theorem SameBuffers.refl (a : Engine) : SameBuffers a a := ⟨rfl, rfl, rfl⟩

theorem SameBuffers.trans {a b c : Engine} (h1 : SameBuffers a b) (h2 : SameBuffers b c) : SameBuffers a c := by
  obtain ⟨s1, d1, l1⟩ := h1
  obtain ⟨s2, d2, l2⟩ := h2
  exact ⟨s2.trans s1, d2.trans d1, l2.trans l1⟩

theorem SameBuffers.kept (s0 : State) : Kept (EachRelated (fun _ => SameBuffers) s0) :=
  EachRelated.kept (R := fun _ => SameBuffers) (fun _ _ _ _ => SameBuffers.trans) s0 (fun _ e _ => SameBuffers.refl e)
    fun _ i e m _ => (operation_keeps_operands i e m).2

/-- Settles O22: neither an error nor a command's operation writes SRC, DST or LEN. -/
theorem noCommandWritesSrcDstLen : Obligations.NoCommandWritesSrcDstLen := by
  intro i s t k e f h he hf
  exact (SameBuffers.kept s).exec h (EachRelated.refl (fun _ => SameBuffers.refl) s) k e f he hf

/-- An engine after a write to one that keeps STATUS. -/
theorem status_of_setEngine {s : State} {j k : Nat} {a b e f : Engine} (ha : s.engines[j]? = some a)
    (hab : b.status = a.status) (he : s.engines[k]? = some e) (hf : (setEngine s j b).engines[k]? = some f) :
    f.status = e.status := by
  rcases getElem_set_cases hf with ⟨rfl, rfl⟩ | ⟨_, hk⟩
  · rw [hab, Option.some.inj (ha.symm.trans he)]
  · rw [Option.some.inj (hk.symm.trans he)]

/-- Settles O16: of the remaining actions only a register write touches an engine, and it keeps STATUS. -/
theorem onlyCommandsAndResetWriteStatus : Obligations.OnlyCommandsAndResetWriteStatus := by
  intro s t k e f hcmd hover hreset ht he hf
  have same : t.engines = s.engines → f.status = e.status := fun h => by
    rw [h] at hf
    rw [Option.some.inj (hf.symm.trans he)]
  cases hp : s.pending with
  | nil =>
    rw [step_nil hp] at ht
    cases ht
    exact same rfl
  | cons a rest =>
    rw [step_cons hp] at ht
    rw [hp] at hcmd hover hreset
    cases a with
    | regWrite j width off v =>
      rcases regWrite_next ht with ⟨rfl, rfl, _⟩ | ⟨a, r, ha, rfl⟩
      · exact absurd rfl (hcmd j v)
      · exact status_of_setEngine ha (writeReg_status a v r) he hf
    | regRead j width off =>
      obtain ⟨_, _, _, rfl⟩ := regRead_next_iff.1 ht
      exact same rfl
    | store b bytes =>
      obtain ⟨_, rfl⟩ := hostStore_next ht
      exact same rfl
    | load b n =>
      obtain ⟨_, rfl⟩ := hostLoad_next_iff.1 ht
      exact same rfl
    | overlapped cmds others => exact absurd rfl (hover cmds others)
    | reset => exact absurd rfl hreset

/-! ### Who touches and who sees what -/

/-- Settles O19: a read only binds a value, and a write away from CMD only replaces an engine. -/
theorem onlyCmdWritesTouchMemory : Obligations.OnlyCmdWritesTouchMemory := by
  intro s t k width off v rest ht
  constructor
  · intro hp
    rw [step_cons hp] at ht
    obtain ⟨_, _, _, rfl⟩ := regRead_next_iff.1 ht
    exact ⟨rfl, rfl⟩
  · intro hp hoff
    rw [step_cons hp] at ht
    rcases regWrite_next ht with ⟨_, h70, _⟩ | ⟨_, _, _, rfl⟩
    · exact absurd h70 hoff
    · rfl

theorem readReg_of_key_changed (e : Engine) (b : Key) (r : Reg) : readReg { e with key := b } r = readReg e r := by
  cases r <;> rfl

/-- A register read binds the same value whatever the key of an engine is. -/
theorem regRead_of_key_changed {s t : State} {j k : Nat} {width : AccessWidth} {off : BitVec 8} {e : Engine} (b : Key)
    (he : s.engines[k]? = some e) (h : regRead j width off s = .next t) :
    ∃ u, regRead j width off (setEngine s k { e with key := b }) = .next u ∧ u.observed = t.observed := by
  obtain ⟨a, r, ha, rfl⟩ := regRead_next_iff.1 h
  by_cases hjk : j = k
  · subst hjk
    obtain rfl : e = a := Option.some.inj (he.symm.trans (access_ok.1 ha).1)
    refine ⟨_, regRead_next_iff.2 ⟨_, r, access_congr ha (getElem_set_self _ he), rfl⟩, ?_⟩
    rw [observe_observed, observe_observed, readReg_of_key_changed, setEngine_observed]
  · have ha' : (setEngine s k { e with key := b }).engines[j]? = some a :=
      (List.getElem?_set_ne (Ne.symm hjk)).trans (access_ok.1 ha).1
    exact ⟨_, regRead_next_iff.2 ⟨a, r, access_congr ha ha', rfl⟩, rfl⟩

/-- Settles O18: no register that reads back is computed from KEY, and a load reads memory alone. -/
theorem readsDoNotRevealTheKey : Obligations.ReadsDoNotRevealTheKey := by
  intro s t k e b a rest hp ha he ht
  rw [step_cons hp] at ht
  rw [step_cons (s := setEngine s k { e with key := b }) hp]
  rcases ha with ⟨j, width, off, rfl⟩ | ⟨x, n, rfl⟩
  · exact regRead_of_key_changed (s := advance s rest) b he ht
  · obtain ⟨hm, rfl⟩ := hostLoad_next_iff.1 ht
    exact ⟨_, hostLoad_next_iff.2 ⟨hm, rfl⟩, rfl⟩

/-- Settles O46: a command is one update of its own engine and of memory, computed from these two alone. -/
theorem instancesAreIsolated : Obligations.InstancesAreIsolated := by
  intro i s t h
  obtain ⟨e, f, m, he, rfl, hother⟩ := exec_next_other_engines h
  refine ⟨fun k hk => List.getElem?_set_ne hk.symm, fun l hl => ⟨_, hother l hl, rfl, ?_⟩⟩
  exact (getElem_set_self f (hl.trans he)).trans (getElem_set_self f he).symm

/-- Settles O44: with NUM = 0 the first byte regenerates the cache before it is read. -/
theorem exhaustedCacheIsNotUsed : Obligations.ExhaustedCacheIsNotUsed := by
  intro s e b hr hn hl
  obtain ⟨he, hc, hb⟩ := hr.ready
  rw [exec_ready ⟨he, hc, hb⟩, exec_setEngine (f := { e with ecount := b }) he hc hb,
    operation_ctrApply_exhausted_cache hn hl]

end Sys2Proof.Machine
end

section
/-!
PROOFS. The statements about reset, the register window and the command word of one step.
-/

namespace Sys2Proof.Machine

/-! ### Reset -/

/-- Settles O6: the platform has an engine 0, and each engine starts as `Engine.reset`. -/
theorem resetStateHoldsTheTabledValues : Obligations.ResetStateHoldsTheTabledValues :=
  ⟨List.cons_ne_nil _ _, fun _ he => registers_of_eq_reset (eq_reset_of_mem_resetOn he)⟩

/-- Settles O7: the action gives every engine the contents `Engine.reset`. -/
theorem resetActionClearsEveryRegister : Obligations.ResetActionClearsEveryRegister := by
  intro s rest hp
  exact ⟨resetEngines (advance s rest), step_cons hp, rfl, rfl, rfl, resetEngines_length _,
    fun _ he => registers_of_eq_reset (eq_reset_of_mem_resetEngines he)⟩

/-! ### The register window -/

/-- Settles O9: the write goes to the register at the offset, whose word and VALID bit `setWord` and
`setValidBit` set. -/
theorem writeToKeyOrIvWord : Obligations.WriteToKeyOrIvWord := by
  intro s k e v w rest he
  exact ⟨
    fun hp => ⟨_, _, step_write (.key w) he rfl (by simp) hp, setWord_setValidBit_spec e.key (by omega) v _ _⟩,
    fun hp => ⟨_, _, step_write (.iv w) he rfl (by simp) hp, setWord_setValidBit_spec e.iv (by omega) v _ _⟩⟩

/-- Settles O10, as O9. -/
theorem writeToCtrOrEcountWord : Obligations.WriteToCtrOrEcountWord := by
  intro s k e v w rest he
  exact ⟨
    fun hp => ⟨_, _, step_write (.ctr w) he rfl (by simp) hp, setWord_setValidBit_spec e.ctr (by omega) v _ _⟩,
    fun hp =>
      ⟨_, _, step_write (.ecount w) he rfl (by simp) hp, setWord_setValidBit_spec e.ecount (by omega) v _ _⟩⟩

/-- Settles O11: the write goes to the register at each offset and takes the value whole. -/
theorem writeToNumSrcDstLen : Obligations.WriteToNumSrcDstLen := by
  intro s k e v rest he
  exact ⟨step_write .num he rfl (by decide), step_write .src he rfl (by decide), step_write .dst he rfl (by decide),
    step_write .len he rfl (by decide)⟩

/-- Settles O12: each of these offsets is that of a register that ignores writes, or of one that reads 0. -/
theorem ignoredWritesAndZeroReads : Obligations.IgnoredWritesAndZeroReads := by
  intro s k e v o rest he ho h4
  constructor
  · intro hp hlo
    obtain ⟨r, hr, hc, hw⟩ := exists_readOnly_reg ho h4 hlo
    rw [step_write r he hr hc hp, hw, setEngine_self (s := advance s rest) he]
  · intro hp hz
    exact step_read_zero he ho h4 hz hp

/-- Settles O13: each register read at its own offset, the packed words as numbers. -/
theorem readsReturnTheRegister : Obligations.ReadsReturnTheRegister := by
  intro s k e rest he
  exact ⟨fun w hw hp => ⟨_, step_read (.iv ⟨w, hw⟩) he rfl hp, getWord_toNat e.iv w⟩,
    fun w hw hp => ⟨_, step_read (.ctr ⟨w, hw⟩) he rfl hp, getWord_toNat e.ctr w⟩,
    fun w hw hp => ⟨_, step_read (.ecount ⟨w, hw⟩) he rfl hp, getWord_toNat e.ecount w⟩,
    step_read .num he rfl, step_read .src he rfl, step_read .dst he rfl, step_read .len he rfl,
    step_read .status he rfl, step_read .valid he rfl, fun _ ho h4 hz hp => step_read_zero he ho h4 hz hp⟩

/-- Settles O14: the access fails before it reaches a register, for a write and for a read alike. -/
theorem wrongWidthOrAlignmentIsABusError : Obligations.WrongWidthOrAlignmentIsABusError := by
  intro s k e width off v rest he hbad hp
  have ha := access_busError (s := advance s rest) he hbad
  rcases hp with hp | hp
  · rw [step_cons hp, perform, regWrite, ha]
  · rw [step_cons hp, perform, regRead, ha]

/-! ### The command word -/

/-- Settles O3: the access reaches CMD, and a word that decodes is its command. -/
theorem stepRunsTheDecodedCommand : Obligations.StepRunsTheDecodedCommand := by
  intro s k e v i rest he hp hd
  rw [step_cmdWrite he hp, cmdWrite_of_decode (s := advance s rest) he hd]

/-- Settles O4: the placed action is the CMD write of O3. -/
theorem fetchedWordRunsNext : Obligations.FetchedWordRunsNext := by
  intro s e w i he hd
  exact stepRunsTheDecodedCommand (s.withFetchWord 32 w) 0 e _ i s.pending he rfl (decode_of_decodeTableWord hd)

end Sys2Proof.Machine
end

section
/-!
PROOFS. Rules about memory traffic that the statements of spec/20_memory.md share: which bytes the platform serves,
what makes a run a race, and one CMD write as an update of its engine and of memory.
-/

namespace Sys2Proof.Machine

/-! ### Byte strings and host accesses -/

/-- The bytes written are the bytes read back (R61). -/
theorem readList_writeList_same {m : Memory} {a : Nat} {bs : List Byte} (hm : m.wf = true)
    (h : a + bs.length ≤ 4294967296) : readList (writeList m a bs) a bs.length = bs := by
  refine List.ext_getElem (readList_length _ _ _) fun i _ hi => ?_
  simp only [readList, List.getElem_map, List.getElem_range]
  exact readByte_writeList_inside hm h hi

/-- A host access inside the address space and outside every window gets through (R60). -/
theorem memoryAccess_of_rangeAll {p : Platform} {a n : Nat} (h : a + n ≤ 4294967296)
    (hw : rangeAll (fun b => !inWindow p b) a n = true) : memoryAccess p a n = .ok () := by
  rw [memoryAccess, if_neg (by omega), if_pos hw]

/-- A store that gets through, as a step. -/
theorem step_store {s : State} {a : Word} {bs : List Byte} {rest : List HostAction}
    (hp : s.pending = .store a bs :: rest) (h : memoryAccess s.platform a.toNat bs.length = .ok ()) :
    step s = .next (setMem (advance s rest) (writeList s.mem a.toNat bs)) := by
  rw [step_cons hp, perform, hostStore, advance_platform, h, advance_mem]

/-- A load that gets through, as a step. -/
theorem step_load {s : State} {a : Word} {n : Nat} {rest : List HostAction}
    (hp : s.pending = .load a n :: rest) (h : memoryAccess s.platform a.toNat n = .ok ()) :
    step s = .next (observe (advance s rest) (.bytes (readList s.mem a.toNat n))) :=
  (step_cons hp).trans (hostLoad_next_iff.2 ⟨h, rfl⟩)

/-! ### What the platform serves -/

/-- A DMA request is served in an admitted region outside every register window (R81). -/
theorem dmaServed_iff {p : Platform} {a : Nat} :
    dmaServed p a = true ↔
      (∃ r ∈ p.admitted, r.lo ≤ a ∧ a < r.lo + r.size) ∧ ¬∃ b ∈ p.bases, b.val ≤ a ∧ a < b.val + 256 := by
  simp [dmaServed, memAdmit, inWindow]

/-- The platform does not serve a command's buffers exactly where one of their bytes is not admitted or lies in a
window (R81). -/
theorem buffersServed_eq_false_iff {p : Platform} {e : Engine} :
    buffersServed p e = false ↔
      ∃ a, (InBuffer a e.src.toNat e.len.toNat ∨ InBuffer a e.dst.toNat e.len.toNat) ∧
        ((¬∃ r ∈ p.admitted, r.lo ≤ a ∧ a < r.lo + r.size) ∨ ∃ b ∈ p.bases, b.val ≤ a ∧ a < b.val + 256) := by
  rw [← Bool.not_eq_true, buffersServed_iff]
  simp only [not_forall, exists_prop]
  refine exists_congr fun a => and_congr_right fun _ => ?_
  rw [dmaServed_iff, not_and_or, not_not]

/-- A command whose checks pass is stuck exactly when the platform does not serve its buffers (R81). -/
theorem exec_stuck_iff {i : Instr} {s : State} {e : Engine} (he : s.engines[s.target]? = some e)
    (hc : check i e = .ok) : exec i s = .fault (.dmaStuck s.target) ↔ buffersServed s.platform e = false := by
  refine ⟨fun h => ?_, exec_stuck he hc⟩
  by_contra hb
  rw [exec_ready ⟨he, hc, Bool.eq_true_of_not_eq_false hb⟩] at h
  cases h

/-- Every buffer of 0xFFFFFFF0 bytes that starts at most at 0x10 holds this byte of engine 0's window (log 5). -/
theorem inBuffer_base0 (p : Platform) {a : Nat} (h : a ≤ 0x10) :
    InBuffer (p.base0.val + 16) a 0xFFFFFFF0 := by
  have := p.base0.isLt
  exact ⟨by omega, by omega⟩

/-! ### Races -/

/-- Two ranges meet exactly where they share a byte. -/
theorem rangesMeet_iff {a l b k : Nat} : rangesMeet a l b k = true ↔ ∃ x, InBuffer x a l ∧ InBuffer x b k := by
  simp only [rangesMeet, Bool.and_eq_true, decide_eq_true_eq, InBuffer]
  constructor
  · rintro ⟨⟨⟨hl, hk⟩, hab⟩, hba⟩
    exact ⟨max a b, by omega, by omega⟩
  · rintro ⟨x, hx, hy⟩
    omega

/-- Commands of two engines race exactly at a byte that one writes and the other reads or writes (R80). -/
theorem footprintsRace_iff {f g : Footprint} :
    footprintsRace f g = true ↔ f.engine ≠ g.engine ∧ ∃ x,
      (InBuffer x f.dst f.len ∧ InBuffer x g.dst g.len) ∨ (InBuffer x f.dst f.len ∧ InBuffer x g.src g.len) ∨
        (InBuffer x f.src f.len ∧ InBuffer x g.dst g.len) := by
  simp only [footprintsRace, Bool.and_eq_true, Bool.or_eq_true, decide_eq_true_eq, rangesMeet_iff, exists_or, or_assoc]

theorem footprintsRace_symm {f g : Footprint} (h : footprintsRace f g = true) : footprintsRace g f = true := by
  obtain ⟨hne, x, hx⟩ := footprintsRace_iff.1 h
  exact footprintsRace_iff.2 ⟨hne.symm, x, by tauto⟩

/-- Two footprints of a list that race are found, wherever they stand in it. -/
theorem anyRace_of_mem {l : List Footprint} {f g : Footprint} (hf : f ∈ l) (hg : g ∈ l)
    (h : footprintsRace f g = true) : anyRace l = true := by
  induction l with
  | nil => cases hf
  | cons a r ih =>
    rw [anyRace, Bool.or_eq_true, List.any_eq_true]
    rcases List.mem_cons.1 hf with hfa | hfr <;> rcases List.mem_cons.1 hg with hga | hgr
    · exact absurd (congrArg Footprint.engine (hfa.trans hga.symm)) (footprintsRace_iff.1 h).1
    · exact .inl ⟨g, hgr, hfa ▸ h⟩
    · exact .inl ⟨f, hfr, hga ▸ footprintsRace_symm h⟩
    · exact .inr (ih hfr hgr)

theorem races_of_footprintsRace {s : State} {cs : List (Nat × Word)} {os : List AgentEvent} {c d : Nat × Word}
    {f g : Footprint} (hc : c ∈ cs) (hd : d ∈ cs) (hf : footprint s c = some f) (hg : footprint s d = some g)
    (h : footprintsRace f g = true) : races s cs os = true := by
  simp only [races, Bool.or_eq_true]
  exact .inl (anyRace_of_mem (List.mem_filterMap.2 ⟨c, hc, hf⟩) (List.mem_filterMap.2 ⟨d, hd, hg⟩) h)

theorem races_of_agentRaces {s : State} {cs : List (Nat × Word)} {os : List AgentEvent} {c : Nat × Word}
    {o : AgentEvent} {f : Footprint} (hc : c ∈ cs) (hf : footprint s c = some f) (ho : o ∈ os)
    (h : agentRaces f o = true) : races s cs os = true := by
  simp only [races, Bool.or_eq_true, List.any_eq_true]
  exact .inr ⟨f, List.mem_filterMap.2 ⟨c, hc, hf⟩, o, ho, h⟩

/-- A byte in a buffer, as two ranges that meet. -/
theorem rangesMeet_byte {x a l : Nat} (h : InBuffer x a l) : rangesMeet x 1 a l = true :=
  rangesMeet_iff.2 ⟨x, ⟨Nat.le_refl x, Nat.lt_succ_self x⟩, h⟩

theorem agentRaces_write {f : Footprint} {x : Word} (v : Byte)
    (h : InBuffer x.toNat f.src f.len ∨ InBuffer x.toNat f.dst f.len) : agentRaces f (.write x v) = true := by
  rw [agentRaces, Bool.or_eq_true]
  exact h.imp rangesMeet_byte rangesMeet_byte

theorem agentRaces_read {f : Footprint} {x : Word} (h : InBuffer x.toNat f.dst f.len) :
    agentRaces f (.read x) = true :=
  rangesMeet_byte h

/-- A race with no reset in it is refused as a race, as a step. -/
theorem step_race {s : State} {cs : List (Nat × Word)} {os : List AgentEvent} {rest : List HostAction}
    (hp : s.pending = .overlapped cs os :: rest) (ho : AgentEvent.reset ∉ os) (h : races s cs os = true) :
    step s = .refused .race := by
  have h' : races (advance s rest) cs os = true := h
  have hr : ¬(os.any fun o => decide (o = .reset)) = true := by simpa using ho
  rw [step_cons hp, perform, overlapped, if_neg hr, if_pos h']

theorem decode_encode (i : Instr) : decode (encode i) = .ok i := by
  cases i <;> decide

/-- The footprint of a command under its listed preconditions. -/
theorem footprint_of_preconditions {s : State} {k : Nat} {e : Engine} {i : Instr} (he : s.engines[k]? = some e)
    (h : Preconditions i e) : footprint s (k, encode i) = some ⟨k, e.src.toNat, e.dst.toNat, e.len.toNat⟩ :=
  footprint_some he (decode_encode i) (check_ok_iff_preconditions.2 h)

/-! ### A CMD write as an update of its engine and of memory -/

/-- What a CMD write of `v` leaves in its engine, which holds `e`, and in memory. -/
def cmdEffect (v : Word) (e : Engine) (m : Memory) : Engine × Memory :=
  match decode v with
  | .error _ => (setErr e .illegalCmd, m)
  | .ok i =>
    if check i e = .ok then (setErr (operation i e m).1 .ok, (operation i e m).2) else (setErr e (check i e), m)

/-- The code that a CMD write of `v` on `e` answers (R93, R173). -/
def cmdCode (v : Word) (e : Engine) : ErrCode :=
  match decode v with
  | .ok i => check i e
  | .error _ => .illegalCmd

/-- The CMD write of `v` runs a command on `e`: the word is legal and its checks pass. -/
def Runs (v : Word) (e : Engine) (i : Instr) : Prop := decode v = .ok i ∧ check i e = .ok

/-- The CMD write of `v` on `e` writes the byte at `x`. -/
def WritesByte (v : Word) (e : Engine) (x : Nat) : Prop := (∃ i, Runs v e i) ∧ InBuffer x e.dst.toNat e.len.toNat

/-- The CMD write of `v` on `e` reads the byte at `x`. -/
def ReadsByte (v : Word) (e : Engine) (x : Nat) : Prop := (∃ i, Runs v e i) ∧ InBuffer x e.src.toNat e.len.toNat

theorem cmdEffect_of_runs {v : Word} {e : Engine} {i : Instr} (m : Memory) (h : Runs v e i) :
    cmdEffect v e m = (setErr (operation i e m).1 .ok, (operation i e m).2) := by
  simp only [cmdEffect, h.1, if_pos h.2]

/-- A CMD write that runs no command writes a status code and no memory (R174). -/
theorem cmdEffect_of_not_runs {v : Word} {e : Engine} (m : Memory) (h : ¬∃ i, Runs v e i) :
    cmdEffect v e m = (setErr e (cmdCode v e), m) := by
  cases hd : decode v with
  | error c => simp only [cmdEffect, cmdCode, hd]
  | ok i => simp only [cmdEffect, cmdCode, hd, if_neg fun hc => h ⟨i, hd, hc⟩]

/-- A CMD write that answers a next state is its effect. -/
theorem cmdWrite_next_effect {k : Nat} {v : Word} {s t : State} (h : cmdWrite k v s = .next t) :
    ∃ e, s.engines[k]? = some e ∧
      t = setMem (setEngine (selectEngine s k) k (cmdEffect v e s.mem).1) (cmdEffect v e s.mem).2 := by
  obtain ⟨e, f, m, he, rfl, ⟨hfail, rfl, rfl⟩ | ⟨i, hi, hc, _, rfl, rfl⟩⟩ := cmdWrite_next h
  · refine ⟨e, he, ?_⟩
    rw [cmdEffect_of_not_runs s.mem fun ⟨i, hi, hc⟩ => hfail i hi hc]
    rfl
  · exact ⟨e, he, by rw [cmdEffect_of_runs s.mem ⟨hi, hc⟩]⟩

/-- What a CMD write leaves in its engine does not depend on memory. -/
theorem cmdEffect_engine_congr (v : Word) (e : Engine) (m m' : Memory) :
    (cmdEffect v e m').1 = (cmdEffect v e m).1 := by
  by_cases h : ∃ i, Runs v e i
  · obtain ⟨i, hi⟩ := h
    rw [cmdEffect_of_runs m hi, cmdEffect_of_runs m' hi, operation_engine_congr m m' hi.2]
  · rw [cmdEffect_of_not_runs m h, cmdEffect_of_not_runs m' h]

theorem wf_cmdEffect (v : Word) (e : Engine) {m : Memory} (hm : m.wf = true) :
    Memory.wf (cmdEffect v e m).2 = true := by
  by_cases h : ∃ i, Runs v e i
  · obtain ⟨i, hi⟩ := h
    rw [cmdEffect_of_runs m hi]
    exact wf_operation hm hi.2
  · rw [cmdEffect_of_not_runs m h]
    exact hm

/-- A byte that the CMD write does not write is as it was. -/
theorem readByte_cmdEffect_unwritten {v : Word} {e : Engine} (m : Memory) {x : Nat} (hx : ¬WritesByte v e x) :
    readByte (cmdEffect v e m).2 x = readByte m x := by
  by_cases h : ∃ i, Runs v e i
  · obtain ⟨i, hi⟩ := h
    rw [cmdEffect_of_runs m hi]
    exact operation_outside hi.2 fun hb => hx ⟨⟨i, hi⟩, hb⟩
  · rw [cmdEffect_of_not_runs m h]

/-- A byte that the CMD write writes depends on the bytes it reads alone. -/
theorem readByte_cmdEffect_congr {v : Word} {e : Engine} {m m' : Memory} {x : Nat} (hm : m.wf = true)
    (hm' : m'.wf = true) (hr : ∀ y, ReadsByte v e y → readByte m' y = readByte m y) (hx : WritesByte v e x) :
    readByte (cmdEffect v e m').2 x = readByte (cmdEffect v e m).2 x := by
  obtain ⟨⟨i, hi⟩, hlo, hhi⟩ := hx
  have hs : ∀ q < e.len.toNat, readByte m' (e.src.toNat + q) = readByte m (e.src.toNat + q) :=
    fun q hq => hr _ ⟨⟨i, hi⟩, by omega, by omega⟩
  have h := operation_output_congr hm hm' hi.2 hs (q := x - e.dst.toNat) (by omega)
  rw [Nat.add_sub_cancel' hlo] at h
  rwa [cmdEffect_of_runs m hi, cmdEffect_of_runs m' hi]

/-! ### Two CMD writes that share no byte -/

/-- No byte that the first CMD write writes is read or written by the second. -/
def OutputApart (v : Word) (e : Engine) (w : Word) (f : Engine) : Prop :=
  ∀ x, WritesByte v e x → ¬WritesByte w f x ∧ ¬ReadsByte w f x

/-- At a byte the first CMD write writes, it leaves the same before and after the second. -/
theorem readByte_cmdEffect_comm {v w : Word} {e f : Engine} {m : Memory} (hm : m.wf = true)
    (hvw : OutputApart v e w f) (hwv : OutputApart w f v e) {x : Nat} (hx : WritesByte v e x) :
    readByte (cmdEffect w f (cmdEffect v e m).2).2 x = readByte (cmdEffect v e (cmdEffect w f m).2).2 x := by
  have hin : ∀ y, ReadsByte v e y → readByte (cmdEffect w f m).2 y = readByte m y :=
    fun y hy => readByte_cmdEffect_unwritten m fun hw => (hwv y hw).2 hy
  rw [readByte_cmdEffect_unwritten _ (hvw x hx).1, readByte_cmdEffect_congr hm (wf_cmdEffect w f hm) hin hx]

/-- Two CMD writes that share no byte leave the same memory in either order (R80). -/
theorem cmdEffect_mem_comm {v w : Word} {e f : Engine} {m : Memory} (hm : m.wf = true)
    (hvw : OutputApart v e w f) (hwv : OutputApart w f v e) :
    (cmdEffect w f (cmdEffect v e m).2).2 = (cmdEffect v e (cmdEffect w f m).2).2 := by
  refine memory_ext (wf_cmdEffect w f (wf_cmdEffect v e hm)) (wf_cmdEffect v e (wf_cmdEffect w f hm)) fun x => ?_
  by_cases hv : WritesByte v e x
  · exact readByte_cmdEffect_comm hm hvw hwv hv
  by_cases hw : WritesByte w f x
  · exact (readByte_cmdEffect_comm hm hwv hvw hw).symm
  · simp only [readByte_cmdEffect_unwritten _ hv, readByte_cmdEffect_unwritten _ hw]

/-- CMD writes of two engines that do not race share no byte. -/
theorem outputApart_of_not_races {s : State} {cs : List (Nat × Word)} {os : List AgentEvent} {j k : Nat}
    {v w : Word} {e f : Engine} (h : races s cs os = false) (hv : (j, v) ∈ cs) (hw : (k, w) ∈ cs) (hjk : j ≠ k)
    (he : s.engines[j]? = some e) (hf : s.engines[k]? = some f) : OutputApart v e w f := by
  intro x ⟨⟨i, hi⟩, hx⟩
  have apart : ∀ i', Runs w f i' →
      ¬InBuffer x f.dst.toNat f.len.toNat ∧ ¬InBuffer x f.src.toNat f.len.toNat := by
    intro i' hi'
    rw [← not_or]
    intro hb
    have hr := races_of_footprintsRace (os := os) hv hw (footprint_some he hi.1 hi.2) (footprint_some hf hi'.1 hi'.2)
      (footprintsRace_iff.2 ⟨hjk, x, hb.imp (⟨hx, ·⟩) fun hs => .inl ⟨hx, hs⟩⟩)
    rw [h] at hr
    cases hr
  exact ⟨fun ⟨⟨i', hi'⟩, hb⟩ => (apart i' hi').1 hb, fun ⟨⟨i', hi'⟩, hb⟩ => (apart i' hi').2 hb⟩

/-- Two CMD writes to distinct engines, one after the other: memory takes both effects in turn, and each engine its
own, computed from the memory before. -/
theorem cmdWrites_two_effect {s t : State} {j k : Nat} {v w : Word} (hjk : j ≠ k)
    (h : cmdWrites [(j, v), (k, w)] s = .next t) :
    ∃ e f, s.engines[j]? = some e ∧ s.engines[k]? = some f ∧
      t.mem = (cmdEffect w f (cmdEffect v e s.mem).2).2 ∧
      t.engines = (s.engines.set j (cmdEffect v e s.mem).1).set k (cmdEffect w f s.mem).1 := by
  obtain ⟨u, hu, ht⟩ := cmdWrites_two h
  obtain ⟨e, he, rfl⟩ := cmdWrite_next_effect hu
  obtain ⟨f, hf, rfl⟩ := cmdWrite_next_effect ht
  have hf' : s.engines[k]? = some f := (List.getElem?_set_ne hjk).symm.trans hf
  refine ⟨e, f, he, hf', rfl, ?_⟩
  rw [← cmdEffect_engine_congr w f s.mem (cmdEffect v e s.mem).2]
  rfl

/-- With no other agent, the run is that of the CMD writes in order. -/
theorem cmdWrites_of_overlapped {cs : List (Nat × Word)} {s t : State} (h : overlapped cs [] s = .next t) :
    cmdWrites cs s = .next t := by
  rw [overlapped, if_neg (by simp)] at h
  split_ifs at h
  exact h

end Sys2Proof.Machine
end

section
/-!
PROOFS. The statements of spec/20_memory.md: stuck DMA, the host's own bytes, and races.
-/

namespace Sys2Proof.Machine

/-- Settles O31: the command is stuck exactly when the platform does not serve its buffers, read byte by byte. -/
theorem stuckExactlyOnUnservedBuffers : Obligations.StuckExactlyOnUnservedBuffers := by
  intro i s e he hpre
  have hc := check_ok_iff_preconditions.2 hpre
  constructor
  · rw [exec_stuck_iff he hc, buffersServed_eq_false_iff]
  · by_cases hb : buffersServed s.platform e = true
    · exact .inr ⟨_, exec_ready ⟨he, hc, hb⟩⟩
    · exact .inl (exec_stuck he hc (Bool.eq_false_of_not_eq_true hb))

/-- Settles O32: the buffer holds a byte of engine 0's window, so O31 applies. -/
theorem largestIgeLengthIsStuck : Obligations.LargestIgeLengthIsStuck := by
  intro i s e hi he hkey hiv hlen hsrc hdst
  have hl : e.len.toNat = 0xFFFFFFF0 := by rw [hlen]; rfl
  have hige : IgePreconditions e :=
    ⟨hkey, hiv, by omega, by omega, by omega, by rw [hdst]; omega, fun h => h.1 (by rw [hdst])⟩
  have hpre : Preconditions i e := by rcases hi with rfl | rfl <;> exact hige
  refine (stuckExactlyOnUnservedBuffers i s e he hpre).1.1 ⟨s.platform.base0.val + 16, .inl ?_, .inr ?_⟩
  · rw [hl]
    exact inBuffer_base0 s.platform hsrc
  · exact ⟨s.platform.base0, List.mem_cons_self, by omega, by omega⟩

/-- Settles O45: both accesses get through, the second on the memory the first wrote. -/
theorem hostLoadAfterStore : Obligations.HostLoadAfterStore := by
  intro s a bs rest hm hp hlen hwin
  have hacc := memoryAccess_of_rangeAll hlen hwin
  refine ⟨_, _, step_store hp hacc, step_load rfl hacc, ?_, rfl, fun x hx => ?_⟩
  · rw [observe_observed, setMem_mem, readList_writeList_same hm hlen]
    rfl
  · exact readByte_writeList_outside (by rw [InBuffer] at hx; omega)

/-- Settles O47: the command's footprint and the agent's access meet. -/
theorem agentInABufferIsARace : Obligations.AgentInABufferIsARace := by
  intro s k e i x cs os rest hp hc he hpre ho hx
  have hf := footprint_of_preconditions he hpre
  rcases hx with ⟨⟨v, hv⟩, hb⟩ | ⟨hr, hb⟩
  · exact step_race hp ho (races_of_agentRaces hc hf hv (agentRaces_write v hb))
  · exact step_race hp ho (races_of_agentRaces hc hf hr (agentRaces_read hb))

/-- Settles O48: the two footprints race at the shared byte. -/
theorem conflictingInstancesAreARace : Obligations.ConflictingInstancesAreARace := by
  intro s j k e f i i' x cs os rest hp hj hk hjk ho he hf hi hi' hx hx'
  refine step_race hp ho (races_of_footprintsRace hj hk (footprint_of_preconditions he hi)
    (footprint_of_preconditions hf hi') (footprintsRace_iff.2 ⟨hjk, x, ?_⟩))
  exact hx'.elim (fun hs => .inr (.inl ⟨hx, hs⟩)) fun hd => .inl ⟨hx, hd⟩

/-- Settles O49: each CMD write is an update of its own engine, which does not depend on memory, and of bytes
that the other leaves alone. -/
theorem concurrentCommandsCommute : Obligations.ConcurrentCommandsCommute := by
  intro s t u j k v w hm hjk hrace ht hu
  obtain ⟨e, f, he, hf, htm, hte⟩ := cmdWrites_two_effect hjk (cmdWrites_of_overlapped ht)
  obtain ⟨f', e', hf', he', hum, hue⟩ := cmdWrites_two_effect hjk.symm (cmdWrites_of_overlapped hu)
  obtain rfl : e = e' := Option.some.inj (he.symm.trans he')
  obtain rfl : f = f' := Option.some.inj (hf.symm.trans hf')
  have hvw : OutputApart v e w f := outputApart_of_not_races hrace (by simp) (by simp) hjk he hf
  have hwv : OutputApart w f v e := outputApart_of_not_races hrace (by simp) (by simp) hjk.symm hf he
  constructor
  · rw [htm, hum, cmdEffect_mem_comm hm hvw hwv]
  · rw [hte, hue, List.set_comm _ _ hjk]

end Sys2Proof.Machine
end

section
/-!
PROOFS. The statements of spec/30_encoding.md: the decoder against the encoder, the opcode table, and the end of
the host program.
-/

namespace Sys2Proof.Machine

/-! ### The command word and its decoder -/

/-- The two fields of R91 make up the whole word: no bit of it is outside both. -/
theorem cmdRsvd_append_cmdOp (w : Word) : cmdRsvd w ++ cmdOp w = w := by
  rw [cmdRsvd, cmdOp, BitVec.extractLsb'_append_extractLsb'_eq_extractLsb' (show 4 = 0 + 4 from rfl)]
  exact BitVec.extractLsb'_eq_self

/-- A word is a command's own exactly when RSVD is 0 and OP is the command's (R91, R92). -/
theorem eq_encode_iff {w : Word} {i : Instr} : w = encode i ↔ cmdRsvd w = 0 ∧ cmdOp w = opOf i := by
  constructor
  · rintro rfl
    cases i <;> decide
  · rintro ⟨hr, ho⟩
    calc w = cmdRsvd w ++ cmdOp w := (cmdRsvd_append_cmdOp w).symm
      _ = encode i := by rw [hr, ho, encode]

/-- A word that decodes to a command has RSVD = 0 and the command's OP (R93). -/
theorem fields_of_decode {w : Word} {i : Instr} (h : decode w = .ok i) : cmdRsvd w = 0 ∧ cmdOp w = opOf i := by
  rw [decode] at h
  split at h
  · cases h
  next hr =>
    refine ⟨not_not.1 hr, ?_⟩
    split at h
    next ho => cases h; exact ho
    split at h
    next ho => cases h; exact ho
    split at h
    next ho => cases h; exact ho
    · cases h

/-- Settles O1: the decoder's branches fix both fields of the word, and the fields fix the word. -/
theorem exactlyThreeWordsDecode : Obligations.ExactlyThreeWordsDecode := by
  refine ⟨fun w i => ⟨fun h => eq_encode_iff.2 (fields_of_decode h), ?_⟩, rfl, rfl, rfl⟩
  rintro rfl
  exact decode_encode i

/-- Settles O2: each legal word is the word of its command; the illegal words are evaluated one by one. -/
theorem tableWordsDecode : Obligations.TableWordsDecode := by
  obtain ⟨-, -, -, -, hEnc⟩ := Laws.CommandWord.igeEnc
  obtain ⟨-, -, -, -, hDec⟩ := Laws.CommandWord.igeDec
  obtain ⟨-, -, -, -, hCtr⟩ := Laws.CommandWord.ctrApply
  refine ⟨hEnc, hDec, hCtr, ?_, ?_, ?_, ?_, ?_, ?_⟩ <;> decide

/-! ### The end of the host program -/

/-- Settles O51: a step looks at the host's next action alone, and there is none. -/
theorem idleAtTheEndOfTheProgram : Obligations.IdleAtTheEndOfTheProgram :=
  fun _ hp => step_nil hp

end Sys2Proof.Machine
end

section
/-!
PROOFS. The statements of spec/40_ige.md. IGE decryption is the encryption chain with the inverse of the cipher and
the halves of IV exchanged, so what the statements share is proved once, of a chain that makes each output block
from its input block and from the input and the output block before it (R114).
-/

namespace Sys2Proof.Machine

/-! ### IGE_ENC and IGE_DEC as one chain -/

/-- The permutation that an IGE command applies in each block: E(K, .) in IGE_ENC, D(K, .) in IGE_DEC. -/
def igeCipher : Instr → Key → Equiv.Perm Block
  | .igeEnc, k => Config.cipher k
  | _, k => (Config.cipher k).symm

/-- What stands for the output block before the first: C_0 in IGE_ENC, P_0 in IGE_DEC (R110). -/
def outputSeed : Instr → Iv → Block
  | .igeEnc, iv => cipherSeed iv
  | _, iv => plainSeed iv

/-- What stands for the input block before the first: P_0 in IGE_ENC, C_0 in IGE_DEC (R110). -/
def inputSeed : Instr → Iv → Block
  | .igeEnc, iv => plainSeed iv
  | _, iv => cipherSeed iv

/-- The transformation of an IGE command on a list of blocks. -/
def igeOutput (i : Instr) (k : Key) (iv : Iv) (xs : List Block) : List Block :=
  igeEncrypt (igeCipher i k) (outputSeed i iv) (inputSeed i iv) xs

theorem igeDecrypt_eq_igeEncrypt (f : Block → Block) (c p : Block) (ys : List Block) :
    igeDecrypt f c p ys = igeEncrypt f p c ys := by
  induction ys generalizing c p with
  | nil => rfl
  | cons y ys ih => rw [igeDecrypt, igeEncrypt, ih]

theorem igeDecLoop_eq_igeEncLoop (f : Block → Block) (n src dst : Nat) (c p : Block) (m : Memory) :
    igeDecLoop f n src dst c p m = igeEncLoop f n src dst p c m := by
  induction n generalizing src dst c p m with
  | zero => rfl
  | succ n ih => rw [igeDecLoop, igeEncLoop, ih]

/-- IGE_DEC's transformation undoes IGE_ENC's, since decryption undoes encryption. -/
theorem igeOutput_igeDec_igeEnc (k : Key) (iv : Iv) (xs : List Block) :
    igeOutput .igeDec k iv (igeOutput .igeEnc k iv xs) = xs :=
  (igeDecrypt_eq_igeEncrypt _ _ _ _).symm.trans (igeDecrypt_igeEncrypt (Config.cipher k) _ _ xs)

theorem igeOutput_igeEnc_igeDec (k : Key) (iv : Iv) (ys : List Block) :
    igeOutput .igeEnc k iv (igeOutput .igeDec k iv ys) = ys := by
  have h := igeEncrypt_igeDecrypt (Config.cipher k) (cipherSeed iv) (plainSeed iv) ys
  rwa [igeDecrypt_eq_igeEncrypt] at h

theorem operation_ige {i : Instr} (hi : i = .igeEnc ∨ i = .igeDec) (e : Engine) (m : Memory) :
    operation i e m = (e, igeEncLoop (igeCipher i e.key) (e.len.toNat / 16) e.src.toNat e.dst.toNat
      (outputSeed i e.iv) (inputSeed i e.iv) m) := by
  rcases hi with rfl | rfl
  · rfl
  · exact Prod.ext rfl (igeDecLoop_eq_igeEncLoop _ _ _ _ _ _ _)

/-! ### What an IGE command answers -/

theorem check_ige_ok {i : Instr} (hi : i = .igeEnc ∨ i = .igeDec) {e : Engine} (h : IgePreconditions e) :
    check i e = .ok := by
  rcases hi with rfl | rfl <;> exact check_ok_iff_preconditions.2 h

theorem IgeReady.preconditions {s : State} {e : Engine} (h : IgeReady s e) : IgePreconditions e := h.2.1

theorem IgePreconditions.blocks {e : Engine} (h : IgePreconditions e) :
    0 < e.len.toNat / 16 ∧ 16 * (e.len.toNat / 16) = e.len.toNat := by
  obtain ⟨-, -, h0, h16, -⟩ := h
  omega

/-- A ready IGE command completes: memory as its operation leaves it, STATUS 0, no other register written. -/
theorem exec_ige {i : Instr} (hi : i = .igeEnc ∨ i = .igeDec) {s : State} {e : Engine} (h : IgeReady s e) :
    exec i s = .next (setMem (setEngine s s.target { e with status := 0 }) (operation i e s.mem).2) := by
  obtain ⟨he, hp, hb⟩ := h
  rw [exec_ready ⟨he, check_ige_ok hi hp, hb⟩, operation_ige hi, setErr, statusOf_ok]

/-- The same after the registers of the addressed engine were set to `f`. -/
theorem exec_ige_setEngine {i : Instr} (hi : i = .igeEnc ∨ i = .igeDec) {s : State} {e f : Engine}
    (he : s.engines[s.target]? = some e) (hp : IgePreconditions f) (hb : buffersServed s.platform f = true) :
    exec i (setEngine s s.target f) =
      .next (setMem (setEngine s s.target { f with status := 0 }) (operation i f s.mem).2) := by
  rw [exec_ige (s := setEngine s s.target f) hi ⟨getElem_set_self f he, hp, hb⟩]
  simp

/-- The output buffer holds the transformation of the input buffer, in place or not (R69). -/
theorem readBlocks_operation_ige {i : Instr} (hi : i = .igeEnc ∨ i = .igeDec) {e : Engine} {m : Memory}
    (hm : m.wf = true) (h : IgePreconditions e) :
    readBlocks (operation i e m).2 e.dst.toNat (e.len.toNat / 16) =
      igeOutput i e.key e.iv (readBlocks m e.src.toNat (e.len.toNat / 16)) := by
  have hc := check_ige_ok hi h
  rcases hi with rfl | rfl
  · exact readBlocks_operation_igeEnc hm hc
  · rw [readBlocks_operation_igeDec hm hc, igeDecrypt_eq_igeEncrypt]
    rfl

/-- Settles O20: a failed check writes STATUS alone, and a passed one the output buffer besides. -/
theorem igeCommandsWriteOnlyOutputAndStatus : Obligations.IgeCommandsWriteOnlyOutputAndStatus := by
  intro i s t e hi he ht
  rw [exec_eq] at ht
  obtain ⟨f, hf, ⟨-, rfl⟩ | ⟨⟨-, hc, -⟩, rfl⟩⟩ := runCommand_next ht
  all_goals obtain rfl : e = f := Option.some.inj (he.symm.trans hf)
  · exact ⟨⟨_, s.mem, rfl⟩, fun _ _ => rfl⟩
  · have hengine : (operation i e s.mem).1 = e := by rw [operation_ige hi]
    rw [hengine]
    exact ⟨⟨_, _, rfl⟩, fun a ha => operation_outside hc ha⟩

/-! ### The equation of each block -/

/-- Block `b` of the buffer at `a`, block 0 first. -/
abbrev blockAt (m : Memory) (a b : Nat) : Block := readBlock m (a + 16 * b)

/-- The block before block `b`: the seed before the first one. -/
def previous (seed : Block) (x : Nat → Block) : Nat → Block
  | 0 => seed
  | b + 1 => x b

/-- The `n` blocks `y` are the chain of the blocks `x` from the seeds `c` for `y` and `p` for `x` (R112 to R114). -/
def IgeChain (f : Block → Block) (c p : Block) (n : Nat) (x y : Nat → Block) : Prop :=
  ∀ b < n, y b = xorBytes (f (xorBytes (x b) (previous c y b))) (previous p x b)

theorem previous_congr (seed : Block) {x x' : Nat → Block} {b : Nat} (h : ∀ a < b, x' a = x a) :
    previous seed x' b = previous seed x b := by
  cases b with
  | zero => rfl
  | succ b => exact h b (Nat.lt_succ_self b)

theorem igeEncrypt_zero (f : Block → Block) (c p : Block) {xs : List Block} {x : Block} (h : xs[0]? = some x) :
    (igeEncrypt f c p xs)[0]? = some (xorBytes (f (xorBytes x c)) p) := by
  cases xs with
  | nil => cases h
  | cons z zs => cases h; rfl

/-- Buffers that hold a list of blocks and its encryption hold a chain. -/
theorem igeChain_of_readBlocks {f : Block → Block} {c p : Block} {m m' : Memory} {a a' n : Nat}
    (h : readBlocks m' a' n = igeEncrypt f c p (readBlocks m a n)) :
    IgeChain f c p n (blockAt m a) (blockAt m' a') := by
  intro b hb
  have hy := getElem_readBlocks m' a' hb
  rw [h] at hy
  cases b with
  | zero => exact Option.some.inj (hy.symm.trans (igeEncrypt_zero f c p (getElem_readBlocks m a hb)))
  | succ b =>
    have hy' := getElem_readBlocks m' a' (Nat.lt_of_succ_lt hb)
    rw [h] at hy'
    exact Option.some.inj (hy.symm.trans (igeEncrypt_succ f c p _
      (getElem_readBlocks m a (Nat.lt_of_succ_lt hb)) (getElem_readBlocks m a hb) hy'))

/-- A ready IGE command leaves in its output buffer the chain of its input buffer. -/
theorem igeChain_operation {i : Instr} (hi : i = .igeEnc ∨ i = .igeDec) {e : Engine} {m : Memory}
    (hm : m.wf = true) (h : IgePreconditions e) :
    IgeChain (igeCipher i e.key) (outputSeed i e.iv) (inputSeed i e.iv) (e.len.toNat / 16)
      (blockAt m e.src.toNat) (blockAt (operation i e m).2 e.dst.toNat) :=
  igeChain_of_readBlocks (readBlocks_operation_ige hi hm h)

/-- Both completion statements: the next state, the frame of memory, and the equations of the first block and of
each block after it. -/
theorem ige_completes_with_chain {i : Instr} (hi : i = .igeEnc ∨ i = .igeDec) {s : State} {e : Engine}
    (hm : s.mem.wf = true) (hr : IgeReady s e) :
    ∃ m, exec i s = .next (setMem (setEngine s s.target { e with status := 0 }) m) ∧
      (∀ a, ¬InBuffer a e.dst.toNat e.len.toNat → readByte m a = readByte s.mem a) ∧
      readBlock m e.dst.toNat =
        xorBytes (igeCipher i e.key (xorBytes (readBlock s.mem e.src.toNat) (outputSeed i e.iv)))
          (inputSeed i e.iv) ∧
      ∀ b, 0 < b → b < e.len.toNat / 16 →
        blockAt m e.dst.toNat b =
          xorBytes (igeCipher i e.key (xorBytes (blockAt s.mem e.src.toNat b) (blockAt m e.dst.toNat (b - 1))))
            (blockAt s.mem e.src.toNat (b - 1)) := by
  have hchain := igeChain_operation hi hm hr.preconditions
  refine ⟨_, exec_ige hi hr, fun a ha => operation_outside (check_ige_ok hi hr.preconditions) ha,
    hchain 0 hr.preconditions.blocks.1, fun b h0 hb => ?_⟩
  obtain ⟨b, rfl⟩ := Nat.exists_eq_succ_of_ne_zero h0.ne'
  exact hchain (b + 1) hb

/-- Settles O33: the chain of IGE_ENC, with E(K, .) and C_0 before the first output block. -/
theorem igeEncCompletesWithTheChain : Obligations.IgeEncCompletesWithTheChain :=
  fun _ _ hm hr => ige_completes_with_chain (.inl rfl) hm hr

/-- Settles O34: the chain of IGE_DEC, with D(K, .) and P_0 before the first output block. -/
theorem igeDecCompletesWithTheChain : Obligations.IgeDecCompletesWithTheChain :=
  fun _ _ hm hr => ige_completes_with_chain (.inr rfl) hm hr

/-! ### Round trip and placement -/

/-- Two IGE commands run one after the other, of which the second's transformation undoes the first's. -/
theorem ige_then_inverse {i i' : Instr} (hi : i = .igeEnc ∨ i = .igeDec) (hi' : i' = .igeEnc ∨ i' = .igeDec)
    (hinv : ∀ k iv xs, igeOutput i' k iv (igeOutput i k iv xs) = xs) {s : State} {e f : Engine}
    (hm : s.mem.wf = true) (hr : IgeReady s e) (hp : IgePreconditions f) (hb : buffersServed s.platform f = true)
    (hkey : f.key = e.key) (hiv : f.iv = e.iv) (hlen : f.len = e.len) (hsrc : f.src = e.dst) :
    ∃ t u, exec i s = .next t ∧ exec i' (setEngine t s.target f) = .next u ∧
      ∀ q < e.len.toNat, readByte u.mem (f.dst.toNat + q) = readByte s.mem (e.src.toNat + q) := by
  let t := setMem (setEngine s s.target { e with status := 0 }) (operation i e s.mem).2
  have ht : t.engines[t.target]? = some { e with status := 0 } := getElem_set_self _ hr.1
  refine ⟨t, _, exec_ige hi hr, exec_ige_setEngine hi' ht hp hb, ?_⟩
  have hblocks : readBlocks (operation i' f t.mem).2 f.dst.toNat (e.len.toNat / 16) =
      readBlocks s.mem e.src.toNat (e.len.toNat / 16) := by
    have hwf : t.mem.wf = true := wf_operation hm (check_ige_ok hi hr.preconditions)
    calc readBlocks (operation i' f t.mem).2 f.dst.toNat (e.len.toNat / 16)
        = igeOutput i' e.key e.iv (readBlocks t.mem e.dst.toNat (e.len.toNat / 16)) := by
          rw [← hlen, readBlocks_operation_ige hi' hwf hp, hkey, hiv, hsrc]
      _ = igeOutput i' e.key e.iv (igeOutput i e.key e.iv (readBlocks s.mem e.src.toNat (e.len.toNat / 16))) :=
          congrArg _ (readBlocks_operation_ige hi hm hr.preconditions)
      _ = readBlocks s.mem e.src.toNat (e.len.toNat / 16) := hinv _ _ _
  have hl := hr.preconditions.blocks.2
  exact fun q hq => readBlocks_eq_iff.1 hblocks q (by omega)

/-- Settles O35: the transformations of the two commands undo each other in either order. -/
theorem igeRoundTrip : Obligations.IgeRoundTrip :=
  fun _ _ _ hm hr hp hb hkey hiv hlen hsrc =>
    ⟨ige_then_inverse (.inl rfl) (.inr rfl) igeOutput_igeDec_igeEnc hm hr hp hb hkey hiv hlen hsrc,
      ige_then_inverse (.inr rfl) (.inl rfl) igeOutput_igeEnc_igeDec hm hr hp hb hkey hiv hlen hsrc⟩

/-- Settles O36: the output buffer is a function of the key, the IV and the input blocks. -/
theorem igeOutputIndependentOfPlacement : Obligations.IgeOutputIndependentOfPlacement := by
  intro i s s' e e' hi hm hm' hr hr' hkey hiv hlen hin
  refine ⟨_, _, exec_ige hi hr, exec_ige hi hr', ?_⟩
  have hl := hr.preconditions.blocks.2
  have hblocks : readBlocks (operation i e' s'.mem).2 e'.dst.toNat (e.len.toNat / 16) =
      readBlocks (operation i e s.mem).2 e.dst.toNat (e.len.toNat / 16) := by
    have h' := readBlocks_operation_ige hi hm' hr'.preconditions
    rw [hkey, hiv, hlen] at h'
    rw [h', readBlocks_operation_ige hi hm hr.preconditions, readBlocks_eq_iff.2 fun q hq => hin q (by omega)]
  exact fun q hq => readBlocks_eq_iff.1 hblocks q (by omega)

/-! ### Error propagation -/

theorem xorBytes_left_injective {n : Nat} (b : Bytes n) : Function.Injective fun a => xorBytes a b :=
  Function.LeftInverse.injective (g := fun a => xorBytes a b) fun a => xorBytes_cancel a b

section Chains

variable {f : Equiv.Perm Block} {c p : Block} {n j : Nat} {x y x' y' : Nat → Block}
  (h : IgeChain f c p n x y) (h' : IgeChain f c p n x' y')
include h h'

/-- Where the inputs agree so far, so do the outputs. -/
theorem IgeChain.output_congr (hj : j ≤ n) (hx : ∀ b < j, x' b = x b) : ∀ b < j, y' b = y b := by
  intro b
  induction b using Nat.strong_induction_on with
  | h b ih =>
    intro hb
    rw [h b (by omega), h' b (by omega), hx b hb, previous_congr c fun a ha => ih a ha (by omega),
      previous_congr p fun a ha => hx a (by omega)]

/-- The first block at which the inputs differ gives different outputs, since the cipher is a permutation. -/
theorem IgeChain.output_ne (hj : j < n) (hx : ∀ b < j, x' b = x b) (hne : x' j ≠ x j) : y' j ≠ y j := by
  intro hy
  rw [h j hj, h' j hj, previous_congr c (h.output_congr h' (by omega) hx), previous_congr p hx] at hy
  exact hne (xorBytes_left_injective _ (f.injective (xorBytes_left_injective _ hy)))

/-- Where an output block agrees and the inputs agree from there on, so do the outputs. -/
theorem IgeChain.output_resync {k : Nat} (hx : ∀ b, k ≤ b → b < n → x' b = x b) (hy : y' k = y k) :
    ∀ b, k ≤ b → b < n → y' b = y b := by
  intro b hkb
  induction b, hkb using Nat.le_induction with
  | base => exact fun _ => hy
  | succ b hkb ih =>
    intro hb
    have hprev : previous c y' (b + 1) = previous c y (b + 1) ∧ previous p x' (b + 1) = previous p x (b + 1) :=
      ⟨ih (by omega), hx b hkb (by omega)⟩
    rw [h _ hb, h' _ hb, hx _ (by omega) hb, hprev.1, hprev.2]

end Chains

/-- Settles O38: both runs leave the chain of their input, from the same key and seeds. -/
theorem igeErrorPropagation : Obligations.IgeErrorPropagation := by
  intro i s m e j hi hm hm' hr hj hsame hne
  have hr' : IgeReady (setMem s m) e := hr
  refine ⟨_, _, exec_ige hi hr, exec_ige hi hr', ?_⟩
  have h := igeChain_operation hi hm hr.preconditions
  have h' := igeChain_operation hi hm' hr.preconditions
  have hbefore : ∀ b < j, blockAt m e.src.toNat b = blockAt s.mem e.src.toNat b := fun b hb =>
    hsame b (by omega) (by omega)
  exact ⟨h.output_congr h' hj.le hbefore, h.output_ne h' hj hbefore hne, fun k hjk hk hy =>
    h.output_resync h' (fun b hb hbn => hsame b hbn (by omega)) hy⟩

/-! ### Continuation -/

/-- `f` is `e` for a piece of the same message alone: `b` blocks after the first `a`. -/
structure IgePiece (e f : Engine) (a b : Nat) : Prop where
  valid : f.valid = e.valid
  src : f.src.toNat = e.src.toNat + 16 * a
  dst : f.dst.toNat = e.dst.toNat + 16 * a
  len : f.len.toNat = 16 * b
  nonempty : 0 < b
  within : 16 * (a + b) ≤ e.len.toNat

theorem IgePiece.preconditions {e f : Engine} {a b : Nat} (h : IgePiece e f a b) (he : IgePreconditions e) :
    IgePreconditions f := by
  obtain ⟨hv, hs, hd, hl, h0, hw⟩ := h
  obtain ⟨hkey, hiv, hlen, h16, hsrc, hdst, hover⟩ := he
  rw [IgePreconditions, hv, hs, hd, hl]
  exact ⟨hkey, hiv, by omega, by omega, by omega, by omega, by omega⟩

theorem IgePiece.buffersServed {e f : Engine} {a b : Nat} (h : IgePiece e f a b) {p : Platform}
    (he : buffersServed p e = true) : buffersServed p f = true := by
  obtain ⟨-, hs, hd, hl, -, hw⟩ := h
  rw [buffersServed_iff] at he ⊢
  rw [hs, hd, hl]
  exact fun x hx => he x (by simp only [InBuffer] at hx ⊢; omega)

theorem igePiece_first {e : Engine} {j : Nat} (h0 : 0 < j) (hj : 16 * j < e.len.toNat) :
    IgePiece e { e with len := BitVec.ofNat 32 (16 * j) } 0 j where
  valid := rfl
  src := rfl
  dst := rfl
  len := by
    have := e.len.isLt
    simp only [BitVec.toNat_ofNat]
    omega
  nonempty := h0
  within := by omega

theorem igePiece_rest {e : Engine} {j : Nat} (iv : Iv) (he : IgePreconditions e) (hj : 16 * j < e.len.toNat) :
    IgePiece e
      { e with
        iv := iv
        src := e.src + BitVec.ofNat 32 (16 * j)
        dst := e.dst + BitVec.ofNat 32 (16 * j)
        len := e.len - BitVec.ofNat 32 (16 * j) } j (e.len.toNat / 16 - j) := by
  obtain ⟨-, -, -, h16, hsrc, hdst, -⟩ := he
  have hlt := e.len.isLt
  constructor
  case valid => rfl
  case src => simp only [BitVec.toNat_add, BitVec.toNat_ofNat]; omega
  case dst => simp only [BitVec.toNat_add, BitVec.toNat_ofNat]; omega
  case len => simp only [BitVec.toNat_sub, BitVec.toNat_ofNat]; omega
  case nonempty => omega
  case within => omega

/-- IV = C_j ++ P_j, from the last input block `x` and the last output block `y`, seeds the chain with these (R117). -/
theorem seeds_of_continuation {i : Instr} (hi : i = .igeEnc ∨ i = .igeDec) (x y : Block) :
    outputSeed i (if i = .igeEnc then y ++ x else x ++ y) = y ∧
      inputSeed i (if i = .igeEnc then y ++ x else x ++ y) = x := by
  rcases hi with rfl | rfl
  · exact ⟨cipherSeed_append y x, plainSeed_append y x⟩
  · exact ⟨plainSeed_append x y, cipherSeed_append x y⟩

/-- A command over a piece and then one over the rest, seeded with the last blocks of the piece, leave memory as the
command over the whole message does. -/
theorem operation_ige_pieces {i : Instr} (hi : i = .igeEnc ∨ i = .igeDec) {e f g : Engine} {j k : Nat} {m : Memory}
    (hm : m.wf = true) (he : IgePreconditions e) (hf : IgePiece e f 0 j) (hg : IgePiece e g j k)
    (hall : e.len.toNat / 16 = j + k) (hfkey : f.key = e.key) (hfiv : f.iv = e.iv) (hgkey : g.key = e.key)
    (hout : outputSeed i g.iv = blockAt (operation i f m).2 e.dst.toNat (j - 1))
    (hin : inputSeed i g.iv = blockAt m e.src.toNat (j - 1)) :
    (operation i g (operation i f m).2).2 = (operation i e m).2 := by
  have hfop : (operation i f m).2 =
      igeEncLoop (igeCipher i e.key) j e.src.toNat e.dst.toNat (outputSeed i e.iv) (inputSeed i e.iv) m := by
    rw [operation_ige hi, hf.len, hf.src, hf.dst, hfkey, hfiv, Nat.mul_div_cancel_left j (by decide)]
    rfl
  obtain ⟨-, hdst, hapart⟩ := check_ok_buffers (check_ige_ok hi he)
  have hl := he.blocks.2
  rw [operation_ige hi e, hall, igeEncLoop_add hf.nonempty hm (by omega) (by rw [← hall, hl]; exact hapart), ← hfop,
    operation_ige hi g, hg.len, hg.src, hg.dst, hgkey, hout, hin, Nat.mul_div_cancel_left k (by decide)]

/-- Settles O37: the loop over all blocks is the loop over the first `j` and then over the rest from their last
blocks, and the second command writes none of the first `j` output blocks. -/
theorem igeContinuation : Obligations.IgeContinuation := by
  intro i s e j hi hm hr hj hlt
  obtain ⟨he, hp, hb⟩ := hr
  let f : Engine := { e with len := BitVec.ofNat 32 (16 * j) }
  let u := setMem (setEngine s s.target { f with status := 0 }) (operation i f s.mem).2
  let x := blockAt s.mem e.src.toNat (j - 1)
  let y := blockAt u.mem e.dst.toNat (j - 1)
  let g : Engine :=
    { e with
      iv := if i = .igeEnc then y ++ x else x ++ y
      src := e.src + BitVec.ofNat 32 (16 * j)
      dst := e.dst + BitVec.ofNat 32 (16 * j)
      len := e.len - BitVec.ofNat 32 (16 * j) }
  have hf : IgePiece e f 0 j := igePiece_first hj hlt
  have hg : IgePiece e g j (e.len.toNat / 16 - j) := igePiece_rest _ hp hlt
  have hu : u.engines[u.target]? = some { f with status := 0 } := getElem_set_self _ he
  obtain ⟨hout, hin⟩ := seeds_of_continuation hi x y
  have hmem : (operation i g u.mem).2 = (operation i e s.mem).2 :=
    operation_ige_pieces hi hm hp hf hg (by omega) rfl rfl rfl hout hin
  have hgp := hg.preconditions hp
  refine ⟨_, u, _, x, y, exec_ige hi ⟨he, hp, hb⟩,
    exec_ige_setEngine hi he (hf.preconditions hp) (hf.buffersServed hb), fun q hq => ?_, rfl, rfl,
    exec_ige_setEngine hi hu hgp (hg.buffersServed hb), hmem⟩
  have houtside : ¬InBuffer (e.dst.toNat + q) g.dst.toNat g.len.toNat := by
    rw [hg.dst]
    omega
  calc readByte u.mem (e.dst.toNat + q)
      = readByte (operation i g u.mem).2 (e.dst.toNat + q) := (operation_outside (check_ige_ok hi hgp) houtside).symm
    _ = readByte (operation i e s.mem).2 (e.dst.toNat + q) := by rw [hmem]

end Sys2Proof.Machine
end

section
/-!
PROOFS. The statements of spec/41_ctr.md. What a ready CTR_APPLY leaves in its engine and in memory is said once, in
the closed form of R145 and R146. That a stream may be split (R148) is shown on the loop itself, whose state the first
command hands on in CTR, ECOUNT, NUM and VALID.
-/

namespace Sys2Proof.Machine

/-! ### What a ready CTR_APPLY answers -/

/-- The engine after a CTR_APPLY that ran to its end (R146). -/
def ctrFinal (e : Engine) : Engine :=
  { e with
    ctr := beBytes 16 ((beNat e.ctr + regenerations e.len.toNat e.num.toNat) % 2 ^ 128)
    ecount := if regenerations e.len.toNat e.num.toNat = 0 then e.ecount
      else keystreamBlock (Config.cipher e.key) (beNat e.ctr) (regenerations e.len.toNat e.num.toNat - 1)
    num := BitVec.ofNat 32 ((e.num.toNat + e.len.toNat) % 16)
    valid := if regenerations e.len.toNat e.num.toNat = 0 then e.valid else setEcV e.valid
    status := 0 }

/-- VALID is as it was where no regeneration happened, and has ECV set where one did (R142). -/
theorem ctrFinal_valid_cases (e : Engine) :
    (regenerations e.len.toNat e.num.toNat = 0 ∧ (ctrFinal e).valid = e.valid) ∨
      (ctrFinal e).valid = setEcV e.valid := by
  by_cases h : regenerations e.len.toNat e.num.toNat = 0
  · exact .inl ⟨h, if_pos h⟩
  · exact .inr (if_neg h)

theorem setErr_operation_ctrApply {e : Engine} (m : Memory) (h : check .ctrApply e = .ok) :
    setErr (operation .ctrApply e m).1 .ok = ctrFinal e := by
  rw [operation_ctrApply_engine m h, setErr, statusOf_ok, ctrFinal]

/-- A ready CTR_APPLY completes: memory as its operation leaves it, and its engine in closed form. -/
theorem exec_ctrApply {s : State} {e : Engine} (h : Ready .ctrApply s e) :
    exec .ctrApply s = .next (setMem (setEngine s s.target (ctrFinal e)) (operation .ctrApply e s.mem).2) := by
  rw [exec_ready h, setErr_operation_ctrApply s.mem h.2.1]

/-- The same after the registers of the addressed engine were set to `f`. -/
theorem exec_ctrApply_setEngine {s : State} {e f : Engine} (he : s.engines[s.target]? = some e)
    (hc : check .ctrApply f = .ok) (hb : buffersServed s.platform f = true) :
    exec .ctrApply (setEngine s s.target f) =
      .next (setMem (setEngine s s.target (ctrFinal f)) (operation .ctrApply f s.mem).2) := by
  rw [exec_setEngine he hc hb, setErr_operation_ctrApply s.mem hc]

/-- The output buffer holds the input XOR the keystream, in place or not (R145). -/
theorem readByte_operation_ctrApply {e : Engine} {m : Memory} (hm : m.wf = true) (h : check .ctrApply e = .ok)
    {q : Nat} (hq : q < e.len.toNat) :
    readByte (operation .ctrApply e m).2 (e.dst.toNat + q) =
      readByte m (e.src.toNat + q) ^^^
        keystreamByte (Config.cipher e.key) (beNat e.ctr) e.num.toNat e.ecount q := by
  obtain ⟨-, hdst, hapart⟩ := check_ok_buffers h
  exact readByte_ctrLoop hm hdst hapart (ctrOperandCheck_ok (check_ok_iff.1 h).2.1).1 hq

/-- Settles O39: the closed forms of the engine and of the output buffer. -/
theorem ctrApplyCompletesInClosedForm : Obligations.CtrApplyCompletesInClosedForm := by
  intro s e hm hr
  have hc := hr.ready.2.1
  exact ⟨_, exec_ctrApply hr.ready, fun a ha => operation_outside hc ha,
    fun q hq => readByte_operation_ctrApply hm hc hq⟩

/-! ### Frame -/

/-- A regeneration sets no VALID bit outside ECV (R142). -/
theorem getLsbD_setEcV_outside (v : Word) {b : Nat} (hb : b < 20 ∨ 24 ≤ b) :
    (setEcV v).getLsbD b = v.getLsbD b := by
  have hmask : (0x00F00000 : Word).getLsbD b = false := by
    by_cases h32 : b < 32
    · exact (by decide : ∀ b < 32, b < 20 ∨ 24 ≤ b → (0x00F00000 : Word).getLsbD b = false) b h32 hb
    · exact BitVec.getLsbD_of_ge _ _ (by omega)
  rw [setEcV, BitVec.getLsbD_or, hmask, Bool.or_false]

theorem getLsbD_ctrFinal_valid_outside (e : Engine) {b : Nat} (hb : b < 20 ∨ 24 ≤ b) :
    (ctrFinal e).valid.getLsbD b = e.valid.getLsbD b := by
  obtain ⟨-, hv⟩ | hv := ctrFinal_valid_cases e
  · rw [hv]
  · rw [hv, getLsbD_setEcV_outside e.valid hb]

/-- Settles O21: a failed check writes STATUS alone, and a passed one leaves the engine of the closed form. -/
theorem ctrApplyWritesOnlyOutputAndStream : Obligations.CtrApplyWritesOnlyOutputAndStream := by
  intro s t e he ht
  rw [exec_eq] at ht
  obtain ⟨f, hf, ⟨-, rfl⟩ | ⟨⟨-, hc, -⟩, rfl⟩⟩ := runCommand_next ht
  all_goals obtain rfl : e = f := Option.some.inj (he.symm.trans hf)
  · exact ⟨⟨_, _, _, _, _, s.mem, rfl, fun _ _ => rfl⟩, fun _ _ => rfl⟩
  · rw [setErr_operation_ctrApply s.mem hc]
    exact ⟨⟨_, _, _, _, _, _, rfl, fun b hb => getLsbD_ctrFinal_valid_outside e hb⟩,
      fun a ha => operation_outside hc ha⟩

/-! ### No byte, and one block at the counter's end -/

theorem operation_ctrApply_of_loop {e : Engine} {m : Memory} {r : Nat × Engine × Memory}
    (h : ctrLoop (Config.cipher e.key) e.len.toNat e.src.toNat e.dst.toNat e.num.toNat e m = r) :
    operation .ctrApply e m = (setNum r.2.1 r.1, r.2.2) := by
  rw [← h]
  rfl

theorem setNum_self (e : Engine) : setNum e e.num.toNat = e := by
  rw [setNum, BitVec.ofNat_toNat, BitVec.setWidth_eq]

theorem buffersServed_of_len_zero (p : Platform) {e : Engine} (h : e.len = 0) : buffersServed p e = true := by
  rw [buffersServed, h]
  rfl

/-- The loop runs no iteration (R149). -/
theorem operation_ctrApply_of_len_zero {e : Engine} (m : Memory) (h : e.len = 0) :
    operation .ctrApply e m = (e, m) := by
  have hl : e.len.toNat = 0 := by rw [h]; rfl
  rw [operation_ctrApply_of_loop (r := (e.num.toNat, e, m)) (by rw [hl]; rfl), setNum_self]

/-- Settles O40: buffers of no byte are served, and the loop over them runs no iteration. -/
theorem zeroLengthCtrChangesOnlyStatus : Obligations.ZeroLengthCtrChangesOnlyStatus := by
  intro s e he hp hl
  rw [exec_ready (CtrReady.ready ⟨he, hp, buffersServed_of_len_zero _ hl⟩), operation_ctrApply_of_len_zero _ hl,
    setErr, statusOf_ok]
  rfl

/-- From an exhausted cache, 1 to 16 bytes take one regeneration (R142). -/
theorem regenerations_eq_one {l : Nat} (h0 : 0 < l) (h16 : l ≤ 16) : regenerations l 0 = 1 := by
  rw [regenerations, if_pos rfl]
  omega

/-- After one regeneration CTR has gone up by one, and ECOUNT is the cipher of what it was (R142). -/
theorem ctrFinal_of_one_regeneration {e : Engine} (h : regenerations e.len.toNat e.num.toNat = 1) :
    (ctrFinal e).ctr = inc128 e.ctr ∧ (ctrFinal e).ecount = Config.cipher e.key e.ctr := by
  rw [ctrFinal, h]
  exact ⟨rfl, keystreamBlock_eq _ e⟩

/-- The counter of all ones wraps to zero (R141, R150). -/
theorem inc128_all_ones : inc128 (Vector.replicate 16 0xFF) = Vector.replicate 16 0 := by
  decide

/-- Settles O41: one regeneration, which encrypts the counter of all ones and then wraps it. -/
theorem counterWrapsWithoutError : Obligations.CounterWrapsWithoutError := by
  intro s e hr hn h0 h16 hctr
  obtain ⟨hc, hg⟩ := ctrFinal_of_one_regeneration (e := e) (by rw [hn]; exact regenerations_eq_one h0 h16)
  rw [hctr] at hc hg
  exact ⟨_, ctrFinal e, exec_ctrApply hr.ready, getElem_set_self _ hr.1, hg, hc.trans inc128_all_ones, rfl⟩

/-! ### CTR_APPLY undoes itself -/

/-- Settles O42: both runs XOR the same keystream to the bytes, and their engines end in the same closed form. -/
theorem ctrApplyTwiceIsIdentity : Obligations.CtrApplyTwiceIsIdentity := by
  intro s e f hm hr hp hb hkey hctr hecount hnum hlen hsrc
  have hc := hr.ready.2.1
  have hcf : check .ctrApply f = .ok := check_ok_iff_preconditions.2 hp
  let t := setMem (setEngine s s.target (ctrFinal e)) (operation .ctrApply e s.mem).2
  have ht : t.engines[t.target]? = some (ctrFinal e) := getElem_set_self _ hr.1
  refine ⟨t, _, ctrFinal e, ctrFinal f, exec_ctrApply hr.ready, exec_ctrApply_setEngine ht hcf hb, fun q hq => ?_,
    ht, getElem_set_self _ ht, ?_⟩
  · have hfirst := readByte_operation_ctrApply hm hc hq
    have hsecond := readByte_operation_ctrApply (wf_operation hm hc) hcf (hlen ▸ hq)
    rw [hsrc, hfirst, hkey, hctr, hecount, hnum, BitVec.xor_assoc, BitVec.xor_self, BitVec.xor_zero] at hsecond
    exact hsecond
  · simp only [ctrFinal, hkey, hctr, hecount, hnum, hlen, and_self]

/-! ### A stream in two pieces -/

/-- The registers that carry a stream from one CTR_APPLY to the next are the same in two engines (R144). -/
structure SameStream (e e' : Engine) : Prop where
  key : e'.key = e.key
  ctr : e'.ctr = e.ctr
  ecount : e'.ecount = e.ecount
  num : e'.num = e.num
  valid : e'.valid = e.valid

/-- The buffers of `f` are the `b` bytes after the first `a` of those of `e`; if `b` is 0, they may be anywhere. -/
structure CtrPiece (e f : Engine) (a b : Nat) : Prop where
  src : 0 < b → f.src.toNat = e.src.toNat + a
  dst : 0 < b → f.dst.toNat = e.dst.toNat + a
  len : f.len.toNat = b
  within : a + b ≤ e.len.toNat

theorem ctrPiece_first {e : Engine} {j : Nat} (hj : j ≤ e.len.toNat) :
    CtrPiece e { e with len := BitVec.ofNat 32 j } 0 j where
  src _ := rfl
  dst _ := rfl
  len := Nat.mod_eq_of_lt (hj.trans_lt e.len.isLt)
  within := by omega

/-- The second piece's registers, with the stream of `g`. Where SRC or DST wraps, no byte is left. -/
theorem ctrPiece_rest {e : Engine} (g : Engine) {j : Nat} (he : bufferCheck e = .ok) (hj : j ≤ e.len.toNat) :
    CtrPiece e
      { g with
        src := e.src + BitVec.ofNat 32 j
        dst := e.dst + BitVec.ofNat 32 j
        len := e.len - BitVec.ofNat 32 j } j (e.len.toNat - j) := by
  obtain ⟨hsrc, hdst, -⟩ := bufferCheck_ok he
  have hlt := e.len.isLt
  constructor
  case src => intro _; simp only [BitVec.toNat_add, BitVec.toNat_ofNat]; omega
  case dst => intro _; simp only [BitVec.toNat_add, BitVec.toNat_ofNat]; omega
  case len => simp only [BitVec.toNat_sub, BitVec.toNat_ofNat]; omega
  case within => omega

section Pieces

variable {e f : Engine} {a b : Nat} (h : CtrPiece e f a b)
include h

theorem CtrPiece.bufferCheck (he : bufferCheck e = .ok) : bufferCheck f = .ok := by
  obtain ⟨hs, hd, hl, hw⟩ := h
  rw [bufferCheck_ok_iff] at he ⊢
  rw [hl]
  rcases Nat.eq_zero_or_pos b with rfl | hb
  · simp
  · rw [hs hb, hd hb]
    omega

theorem CtrPiece.buffersServed {p : Platform} (he : buffersServed p e = true) : buffersServed p f = true := by
  obtain ⟨hs, hd, hl, hw⟩ := h
  rw [buffersServed_iff] at he ⊢
  rw [hl]
  exact fun x hx => he x (by simp only [InBuffer] at hx ⊢; omega)

/-- The loop of a command over a piece, at the addresses of the whole stream. -/
theorem CtrPiece.ctrLoop_eq (enc : Block → Block) (n : Nat) (g : Engine) (m : Memory) :
    ctrLoop enc f.len.toNat f.src.toNat f.dst.toNat n g m =
      ctrLoop enc b (e.src.toNat + a) (e.dst.toNat + a) n g m := by
  rw [h.len]
  rcases Nat.eq_zero_or_pos b with rfl | hb
  · rfl
  · rw [h.src hb, h.dst hb]

end Pieces

/-- The stream's own checks pass again on what a CTR_APPLY leaves (R144). -/
theorem ctrOperandCheck_ctrFinal {e : Engine} (h : ctrOperandCheck e = .ok) : ctrOperandCheck (ctrFinal e) = .ok := by
  obtain ⟨hn, hctr, hec⟩ := ctrOperandCheck_ok_iff.1 h
  have hnum : (ctrFinal e).num.toNat = (e.num.toNat + e.len.toNat) % 16 := Nat.mod_eq_of_lt (by omega)
  rw [ctrOperandCheck_ok_iff, hnum]
  refine ⟨Nat.mod_lt _ (by decide), ?_⟩
  obtain ⟨h0, hv⟩ | hv := ctrFinal_valid_cases e
  · rw [hv]
    refine ⟨hctr, fun hne => hec fun hz => hne ?_⟩
    rw [regenerations, if_pos hz] at h0
    omega
  · rw [hv]
    exact ⟨(ctrV_setEcV _).trans hctr, fun _ => setEcV_ecV _⟩

theorem keyV_ctrFinal (e : Engine) : keyV (ctrFinal e).valid = keyV e.valid := by
  obtain ⟨-, hv⟩ | hv := ctrFinal_valid_cases e
  · rw [hv]
  · rw [hv, keyV_setEcV]

/-- A CTR_APPLY that ran to its end may be followed by another without a register write between them (R148). -/
theorem stream_checks_operation_ctrApply {e : Engine} (m : Memory) (h : check .ctrApply e = .ok) :
    keyV (operation .ctrApply e m).1.valid = 0xFF ∧ ctrOperandCheck (operation .ctrApply e m).1 = .ok := by
  obtain ⟨hkey, hop, -⟩ := check_ok_iff.1 h
  have hfinal := setErr_operation_ctrApply m h
  exact ⟨(congrArg (fun f => keyV f.valid) hfinal).trans ((keyV_ctrFinal e).trans hkey),
    (congrArg ctrOperandCheck hfinal).trans (ctrOperandCheck_ctrFinal hop)⟩

theorem SameStream.trans {e f g : Engine} (h1 : SameStream e f) (h2 : SameStream f g) : SameStream e g where
  key := h2.key.trans h1.key
  ctr := h2.ctr.trans h1.ctr
  ecount := h2.ecount.trans h1.ecount
  num := h2.num.trans h1.num
  valid := h2.valid.trans h1.valid

/-- A command over a piece does to memory and to the stream what the loop `r` over that piece of the whole buffers
does, from the same CTR, ECOUNT and VALID and from the offset that NUM holds. -/
theorem CtrPiece.operation_of_loop {e f p : Engine} {a b n : Nat} {m : Memory} {r : Nat × Engine × Memory}
    (h : CtrPiece e f a b) (hn : n < 16) (hs : SameStream (setNum p n) f)
    (hr : ctrLoop (Config.cipher p.key) b (e.src.toNat + a) (e.dst.toNat + a) n p m = r) :
    (operation .ctrApply f m).2 = r.2.2 ∧ SameStream (setNum r.2.1 r.1) (operation .ctrApply f m).1 := by
  have hkey : f.key = p.key := hs.key
  have hnum : f.num.toNat = n := by
    rw [hs.num, setNum_num, BitVec.toNat_ofNat]
    exact Nat.mod_eq_of_lt (by omega)
  have hop := operation_ctrApply_of_loop (h.ctrLoop_eq (Config.cipher f.key) f.num.toNat f m)
  have hkeyf := (sameOperands_ctrLoop (Config.cipher p.key) b (e.src.toNat + a) (e.dst.toNat + a) n f m).key
  have hkeyp := (sameOperands_ctrLoop (Config.cipher p.key) b (e.src.toNat + a) (e.dst.toNat + a) n p m).key
  obtain ⟨hoff, hmem, hctr, hecount, hvalid⟩ := ctrLoop_congr (e := p) (e' := f) (Config.cipher p.key) b
    (e.src.toNat + a) (e.dst.toNat + a) n m hs.ctr hs.ecount hs.valid
  rw [hkey, hnum] at hop
  rw [hop, ← hr]
  exact ⟨hmem, hkeyf.trans (hkey.trans hkeyp.symm), hctr, hecount, congrArg (BitVec.ofNat 32) hoff, hvalid⟩

/-- A command over a piece and then one over the rest, on the stream the first left, do to memory and to the stream
what one command over both does. -/
theorem operation_ctrApply_pieces {e f g : Engine} {j k : Nat} (m : Memory) (hf : CtrPiece e f 0 j)
    (hg : CtrPiece e g j k) (hall : e.len.toNat = j + k) (hn : e.num.toNat < 16) (hfs : SameStream e f)
    (hgs : SameStream (operation .ctrApply f m).1 g) :
    (operation .ctrApply g (operation .ctrApply f m).2).2 = (operation .ctrApply e m).2 ∧
      SameStream (operation .ctrApply e m).1 (operation .ctrApply g (operation .ctrApply f m).2).1 := by
  let r := ctrLoop (Config.cipher e.key) j e.src.toNat e.dst.toNat e.num.toNat e m
  obtain ⟨hmem, hstream⟩ := hf.operation_of_loop (r := r) hn ((setNum_self e).symm ▸ hfs) rfl
  have hoff : r.1 < 16 := by
    rw [ctrLoop_num _ _ _ _ _ _ hn]
    exact Nat.mod_lt _ (by decide)
  have hwhole : ctrLoop (Config.cipher r.2.1.key) k (e.src.toNat + j) (e.dst.toNat + j) r.1 r.2.1 r.2.2 =
      ctrLoop (Config.cipher e.key) e.len.toNat e.src.toNat e.dst.toNat e.num.toNat e m := by
    rw [(sameOperands_ctrLoop (Config.cipher e.key) j e.src.toNat e.dst.toNat e.num.toNat e m).key, hall, ctrLoop_add]
  rw [hmem]
  exact hg.operation_of_loop hoff (hstream.trans hgs) hwhole

/-- Settles O43: the pieces' operations make up that of the whole, and the checks pass again on what the first
command leaves. -/
theorem ctrApplyResumes : Obligations.CtrApplyResumes := by
  intro s e j hr hj
  obtain ⟨he, hc, hb⟩ := hr.ready
  obtain ⟨hkey, hop, hbuf⟩ := check_ok_iff.1 hc
  let f : Engine := { e with len := BitVec.ofNat 32 j }
  let u := setMem (setEngine s s.target (setErr (operation .ctrApply f s.mem).1 .ok)) (operation .ctrApply f s.mem).2
  let g : Engine :=
    { setErr (operation .ctrApply f s.mem).1 .ok with
      src := e.src + BitVec.ofNat 32 j
      dst := e.dst + BitVec.ofNat 32 j
      len := e.len - BitVec.ofNat 32 j }
  have hf : CtrPiece e f 0 j := ctrPiece_first hj
  have hg : CtrPiece e g j (e.len.toNat - j) := ctrPiece_rest _ hbuf hj
  have hcf : check .ctrApply f = .ok := check_ok_iff.2 ⟨hkey, hop, hf.bufferCheck hbuf⟩
  obtain ⟨hkeyg, hopg⟩ := stream_checks_operation_ctrApply s.mem hcf
  have hcg : check .ctrApply g = .ok := check_ok_iff.2 ⟨hkeyg, hopg, hg.bufferCheck hbuf⟩
  have hu : u.engines[u.target]? = some (setErr (operation .ctrApply f s.mem).1 .ok) := getElem_set_self _ he
  obtain ⟨hmem, hs⟩ := operation_ctrApply_pieces s.mem hf hg (by omega) (ctrOperandCheck_ok hop).1
    ⟨rfl, rfl, rfl, rfl, rfl⟩ ⟨rfl, rfl, rfl, rfl, rfl⟩
  exact ⟨_, u, _, _, _, _, exec_ready hr.ready, getElem_set_self _ he, exec_setEngine he hcf (hf.buffersServed hb), hu,
    exec_setEngine hu hcg (hg.buffersServed hb), getElem_set_self _ hu, hmem, hs.ctr, hs.ecount, hs.num, hs.valid, rfl⟩

end Sys2Proof.Machine
end

section
/-!
PROOFS. The statements of spec/60_exceptions.md: the code of each failing check, the order of the checks, and that
raising an error writes STATUS alone.
-/

namespace Sys2Proof.Machine

/-! ### The code that the checks answer -/

/-- The code of a check is that of the key, of the operands or of the buffers (R173). -/
theorem check_cases (i : Instr) (e : Engine) :
    check i e = .invalidKey ∨ check i e = operandCheck i e ∨ check i e = bufferCheck e := by
  rw [check]
  split_ifs
  · exact .inl rfl
  · exact .inr (.inl rfl)
  · exact .inr (.inr rfl)

theorem check_of_key_unwritten (i : Instr) {e : Engine} (hk : keyV e.valid ≠ 0xFF) : check i e = .invalidKey :=
  if_pos hk

theorem check_of_operands_fail {i : Instr} {e : Engine} (hk : keyV e.valid = 0xFF) (ho : operandCheck i e ≠ .ok) :
    check i e = operandCheck i e := by
  rw [check, if_neg (not_not.2 hk), if_pos ho]

theorem check_of_operands_pass {i : Instr} {e : Engine} (hk : keyV e.valid = 0xFF) (ho : operandCheck i e = .ok) :
    check i e = bufferCheck e := by
  rw [check, if_neg (not_not.2 hk), if_neg (not_not.2 ho)]

/-- The operand checks of IGE have one code of their own (R177). -/
theorem igeOperandCheck_cases (e : Engine) : igeOperandCheck e = .ok ∨ igeOperandCheck e = .invalidLength := by
  rw [igeOperandCheck]
  split_ifs
  · exact .inr rfl
  · exact .inr rfl
  · exact .inl rfl

/-- The operand checks of CTR_APPLY have one code of their own (R179). -/
theorem ctrOperandCheck_cases (e : Engine) : ctrOperandCheck e = .ok ∨ ctrOperandCheck e = .invalidState := by
  rw [ctrOperandCheck]
  split_ifs
  · exact .inr rfl
  · exact .inr rfl
  · exact .inr rfl
  · exact .inl rfl

theorem operandCheck_ige {i : Instr} (hi : i = .igeEnc ∨ i = .igeDec) (e : Engine) :
    operandCheck i e = igeOperandCheck e := by
  rcases hi with rfl | rfl <;> rfl

/-- The buffer checks in the numbers that the registers hold (R65, R66, R180, R181). -/
theorem bufferCheck_eq (e : Engine) :
    bufferCheck e =
      if 0 < e.len.toNat ∧ ¬(e.src.toNat + e.len.toNat ≤ 2 ^ 32 ∧ e.dst.toNat + e.len.toNat ≤ 2 ^ 32) then .range
      else if 0 < e.len.toNat ∧ e.src ≠ e.dst ∧ e.src.toNat < e.dst.toNat + e.len.toNat ∧
          e.dst.toNat < e.src.toNat + e.len.toNat then .overlap
      else .ok := by
  simp only [bufferCheck, inRange, overlaps, Bool.and_eq_true, decide_eq_true_eq, and_assoc, ne_eq,
    BitVec.toNat_inj, Nat.reducePow]

theorem bufferCheck_cases (e : Engine) :
    bufferCheck e = .ok ∨ bufferCheck e = .range ∨ bufferCheck e = .overlap := by
  rw [bufferCheck]
  split_ifs
  · exact .inr (.inl rfl)
  · exact .inr (.inr rfl)
  · exact .inl rfl

/-- With the key written, an IGE command whose IV or LEN is bad fails its operand check (R177). -/
theorem check_ige_of_bad_operand {i : Instr} (hi : i = .igeEnc ∨ i = .igeDec) {e : Engine} (hk : keyV e.valid = 0xFF)
    (hbad : ivV e.valid ≠ 0xFF ∨ e.len.toNat = 0 ∨ e.len.toNat % 16 ≠ 0) : check i e = .invalidLength := by
  have hne : igeOperandCheck e ≠ .ok := fun h => by
    obtain ⟨hiv, hl, hm⟩ := igeOperandCheck_ok_iff.1 h
    rcases hbad with hv | h0 | h16
    · exact hv hiv
    · exact hl h0
    · exact h16 hm
  have hcode : operandCheck i e = .invalidLength :=
    (operandCheck_ige hi e).trans ((igeOperandCheck_cases e).resolve_left hne)
  rw [check_of_operands_fail hk (by rw [hcode]; decide), hcode]

/-- With the key written, a CTR_APPLY whose stream state is bad fails its operand check (R179). -/
theorem check_ctrApply_of_bad_operand {e : Engine} (hk : keyV e.valid = 0xFF)
    (hbad : 16 ≤ e.num.toNat ∨ ctrV e.valid ≠ 0xF ∨ (e.num.toNat ≠ 0 ∧ ecV e.valid ≠ 0xF)) :
    check .ctrApply e = .invalidState := by
  have hne : ctrOperandCheck e ≠ .ok := fun h => by
    obtain ⟨hn, hc, hec⟩ := ctrOperandCheck_ok_iff.1 h
    rcases hbad with h16 | hv | ⟨h0, hv⟩
    · omega
    · exact hv hc
    · exact hv (hec h0)
  exact (check_of_operands_fail (i := .ctrApply) hk hne).trans ((ctrOperandCheck_cases e).resolve_left hne)

/-- The operand checks of a command pass exactly where the statements say so (R173). -/
theorem operandsPass_iff {i : Instr} {e : Engine} :
    OperandsPass i e ↔ keyV e.valid = 0xFF ∧ operandCheck i e = .ok := by
  cases i with
  | igeEnc => simp [OperandsPass, operandCheck, igeOperandCheck_ok_iff, keyV, ivV]
  | igeDec => simp [OperandsPass, operandCheck, igeOperandCheck_ok_iff, keyV, ivV]
  | ctrApply => simp [OperandsPass, operandCheck, ctrOperandCheck_ok_iff, keyV, ctrV, ecV]

theorem check_of_operandsPass {i : Instr} {e : Engine} (h : OperandsPass i e) : check i e = bufferCheck e :=
  check_of_operands_pass (operandsPass_iff.1 h).1 (operandsPass_iff.1 h).2

/-- The codes of IGE_ENC and IGE_DEC (R172). -/
theorem check_ige_mem {i : Instr} (hi : i = .igeEnc ∨ i = .igeDec) (e : Engine) :
    check i e ∈ [ErrCode.ok, .invalidKey, .invalidLength, .range, .overlap] := by
  rcases check_cases i e with h | h | h <;> rw [h]
  · decide
  · rw [operandCheck_ige hi]
    rcases igeOperandCheck_cases e with h | h <;> rw [h] <;> decide
  · rcases bufferCheck_cases e with h | h | h <;> rw [h] <;> decide

/-- The codes of CTR_APPLY (R172). -/
theorem check_ctrApply_mem (e : Engine) :
    check .ctrApply e ∈ [ErrCode.ok, .invalidKey, .invalidState, .range, .overlap] := by
  rcases check_cases .ctrApply e with h | h | h <;> rw [h]
  · decide
  · rw [operandCheck]
    rcases ctrOperandCheck_cases e with h | h <;> rw [h] <;> decide
  · rcases bufferCheck_cases e with h | h | h <;> rw [h] <;> decide

/-! ### What a command leaves in STATUS -/

/-- A command whose check answers an error code raises it, with no other effect (R174). -/
theorem exec_raises {i : Instr} {s : State} {e : Engine} {c : ErrCode} (he : s.engines[s.target]? = some e)
    (h : check i e = c) (hc : c ≠ .ok) : exec i s = .next (setEngine s s.target { e with status := statusOf c }) := by
  subst h
  exact exec_fails he hc

/-- Where a command answers a next state, STATUS holds the code of its check, and memory and the other registers
are as before if that is an error (R173 to R175). -/
theorem exec_next_status {i : Instr} {s t : State} {f : Engine} (ht : exec i s = .next t)
    (hf : t.engines[s.target]? = some f) :
    ∃ e, s.engines[s.target]? = some e ∧ f.status = statusOf (check i e) ∧
      (check i e ≠ .ok → t = setEngine s s.target { e with status := f.status }) := by
  rw [exec_eq] at ht
  obtain ⟨e, he, ⟨-, rfl⟩ | ⟨⟨-, hc, -⟩, rfl⟩⟩ := runCommand_next ht
  · obtain rfl := Option.some.inj ((getElem_set_self _ he).symm.trans hf)
    exact ⟨e, he, rfl, fun _ => rfl⟩
  · obtain rfl := Option.some.inj ((getElem_set_self _ he).symm.trans hf)
    exact ⟨e, he, by rw [hc, setErr_status], fun h => absurd hc h⟩

/-- A command whose checks pass raises no error: it is stuck (R81), or it leaves STATUS 0 (R175). -/
theorem exec_of_checks_pass {i : Instr} {s : State} {e : Engine} (he : s.engines[s.target]? = some e)
    (hc : check i e = .ok) :
    exec i s = .fault (.dmaStuck s.target) ∨
      ∃ t f, exec i s = .next t ∧ t.engines[s.target]? = some f ∧ f.status = 0 := by
  by_cases hb : buffersServed s.platform e = true
  · exact .inr ⟨_, _, exec_ready ⟨he, hc, hb⟩, getElem_set_self _ he, statusOf_ok⟩
  · exact .inl (exec_stuck he hc (Bool.eq_false_of_not_eq_true hb))

/-! ### A CMD write, legal or not -/

/-- A word is that of no command exactly when it is none of the three of R92. -/
theorem ne_encode_iff {v : Word} : (∀ i, v ≠ encode i) ↔ v ≠ 0x00000001 ∧ v ≠ 0x00000002 ∧ v ≠ 0x00000003 := by
  obtain ⟨-, hEnc, hDec, hCtr⟩ := exactlyThreeWordsDecode
  rw [← hEnc, ← hDec, ← hCtr]
  constructor
  · exact fun h => ⟨h _, h _, h _⟩
  · rintro ⟨h1, h2, h3⟩ (_ | _ | _)
    exacts [h1, h2, h3]

/-- OP of a command's word tells IGE from CTR_APPLY. -/
theorem op_encode_ige_iff (i : Instr) :
    (encode i).extractLsb' 0 4 = 0x1 ∨ (encode i).extractLsb' 0 4 = 0x2 ↔ i = .igeEnc ∨ i = .igeDec := by
  cases i <;> decide

theorem eq_ctrApply_of_not_ige {i : Instr} (h : ¬(i = .igeEnc ∨ i = .igeDec)) : i = .ctrApply := by
  cases i with
  | igeEnc => exact absurd (.inl rfl) h
  | igeDec => exact absurd (.inr rfl) h
  | ctrApply => rfl

/-- A write of a command's word to CMD, as a step. -/
theorem step_encode {s : State} {k : Nat} {e : Engine} {i : Instr} {rest : List HostAction}
    (he : s.engines[k]? = some e) (hp : s.pending = .regWrite k .word 0x70 (encode i) :: rest) :
    step s = exec i (selectEngine (advance s rest) k) :=
  stepRunsTheDecodedCommand s k e _ i rest he hp (decode_encode i)

/-- A write of any other word to CMD raises ILLEGAL_CMD, as a step (R95). -/
theorem step_illegal_word {s : State} {k : Nat} {e : Engine} {v : Word} {rest : List HostAction}
    (he : s.engines[k]? = some e) (hp : s.pending = .regWrite k .word 0x70 v :: rest) (hv : ∀ i, v ≠ encode i) :
    step s = .next (setEngine (selectEngine (advance s rest) k) k { e with status := 7 }) := by
  rw [step_cmdWrite he hp, cmdWrite, advance_engines, he]
  cases hd : decode v with
  | ok i => exact absurd ((exactlyThreeWordsDecode.1 v i).1 hd) (hv i)
  | error _ => rfl

/-! ### The obligations -/

/-- Settles O5: the word decodes to no command, and the decoder's error raises the code. -/
theorem illegalWordRaisesIllegalCmd : Obligations.IllegalWordRaisesIllegalCmd :=
  fun _ _ _ _ _ he hp h1 h2 h3 => step_illegal_word he hp (ne_encode_iff.2 ⟨h1, h2, h3⟩)

/-- Settles O23: STATUS is the code of the check, so a STATUS that is not 0 comes from a failed one. -/
theorem errorsAreFailFast : Obligations.ErrorsAreFailFast := by
  intro i s t e f ht he hf hne
  obtain ⟨e', he', hs, hframe⟩ := exec_next_status ht hf
  obtain rfl : e = e' := Option.some.inj (he.symm.trans he')
  exact hframe fun hc => hne (by rw [hs, hc, statusOf_ok])

/-- Settles O24: STATUS is the code of the check, and each command's check has five codes. -/
theorem codesOfEachCommand : Obligations.CodesOfEachCommand := by
  intro i s t f ht hf
  obtain ⟨e, -, hs, -⟩ := exec_next_status ht hf
  rw [hs]
  constructor
  · exact fun hi => List.mem_map_of_mem (f := statusOf) (check_ige_mem hi e)
  · rintro rfl
    exact List.mem_map_of_mem (f := statusOf) (check_ctrApply_mem e)

/-- Settles O26: the key check is the first of every command. -/
theorem unwrittenKeyRaisesInvalidKey : Obligations.UnwrittenKeyRaisesInvalidKey :=
  fun i _ _ he hk => exec_raises he (check_of_key_unwritten i hk) (by decide)

/-- Settles O27: the IGE operand check fails, and has one code. -/
theorem badLengthOrIvRaisesInvalidLength : Obligations.BadLengthOrIvRaisesInvalidLength :=
  fun _ _ _ hi he hk hbad => exec_raises he (check_ige_of_bad_operand hi hk hbad) (by decide)

/-- Settles O28: the CTR operand check fails, and has one code. -/
theorem badStreamStateRaisesInvalidState : Obligations.BadStreamStateRaisesInvalidState :=
  fun _ _ he hk hbad => exec_raises he (check_ctrApply_of_bad_operand hk hbad) (by decide)

/-- Settles O29: past the operand checks the code is that of the buffers, of which the range comes first. -/
theorem bufferPastTopRaisesRange : Obligations.BufferPastTopRaisesRange := by
  intro i s e he hops hl htop
  have hb : bufferCheck e = .range := by rw [bufferCheck_eq, if_pos ⟨hl, by omega⟩]
  exact exec_raises he ((check_of_operandsPass hops).trans hb) (by decide)

/-- Settles O30: past the operand checks and the range check the code is that of the overlap. -/
theorem partialOverlapRaisesOverlap : Obligations.PartialOverlapRaisesOverlap := by
  intro i s e he hops hs hd hl hne h1 h2
  have hb : bufferCheck e = .overlap := by
    rw [bufferCheck_eq, if_neg (fun h => h.2 ⟨hs, hd⟩), if_pos ⟨hl, hne, h1, h2⟩]
  exact exec_raises he ((check_of_operandsPass hops).trans hb) (by decide)

/-- Settles O25: a legal word is a command's, whose check is the chain of R173; past its operand checks the code is
that of the buffers. -/
theorem checksRunInOrder : Obligations.ChecksRunInOrder := by
  intro s k e v rest he hp raised buffers
  by_cases hv : ∀ i, v ≠ encode i
  · rw [if_pos (ne_encode_iff.1 hv)]
    exact step_illegal_word he hp hv
  rw [if_neg fun h => hv (ne_encode_iff.2 h)]
  obtain ⟨i, rfl⟩ : ∃ i, v = encode i := not_forall_not.1 hv
  have hstep : step s = exec i (selectEngine (advance s rest) k) := step_encode he hp
  have hraised : ∀ {c}, check i e = c → c ≠ .ok → raised (statusOf c) := fun h hc =>
    hstep.trans (exec_raises (s := selectEngine (advance s rest) k) he h hc)
  have hbuffers : operandCheck i e = .ok → keyV e.valid = 0xFF → buffers := by
    intro ho hk
    have hc := check_of_operands_pass hk ho
    rw [bufferCheck_eq] at hc
    simp only [buffers]
    split_ifs at hc ⊢
    · exact hraised hc (by decide)
    · exact hraised hc (by decide)
    · rw [hstep]
      exact exec_of_checks_pass (s := selectEngine (advance s rest) k) he hc
  simp only [op_encode_ige_iff]
  split_ifs with hkey hige hiv hlen hnum hctr hec
  · exact hraised (check_of_key_unwritten i hkey) (by decide)
  · exact hraised (check_ige_of_bad_operand hige (not_not.1 hkey) (.inl hiv)) (by decide)
  · exact hraised (check_ige_of_bad_operand hige (not_not.1 hkey) (.inr hlen)) (by decide)
  · refine hbuffers ?_ (not_not.1 hkey)
    rw [operandCheck_ige hige]
    exact igeOperandCheck_ok_iff.2 ⟨not_not.1 hiv, by omega, by omega⟩
  all_goals obtain rfl : i = .ctrApply := eq_ctrApply_of_not_ige hige
  · exact hraised (check_ctrApply_of_bad_operand (not_not.1 hkey) (.inl hnum)) (by decide)
  · exact hraised (check_ctrApply_of_bad_operand (not_not.1 hkey) (.inr (.inl hctr))) (by decide)
  · exact hraised (check_ctrApply_of_bad_operand (not_not.1 hkey) (.inr (.inr hec))) (by decide)
  · exact hbuffers (ctrOperandCheck_ok_iff.2 ⟨by omega, not_not.1 hctr, not_and_not_right.1 hec⟩) (not_not.1 hkey)

end Sys2Proof.Machine
end

section
/-!
PROOFS. The statements of spec/70_reset_and_hazards.md: only reset clears bits of VALID, and a reset asserted inside
a command is refused.
-/

namespace Sys2Proof.Machine

/-! ### Bits of VALID -/

/-- VALID bit `n` is 1 in the second content of an engine, if it is 1 in the first. -/
def KeepsValidBit (n : Nat) (a b : Engine) : Prop := a.valid.getLsbD n = true → b.valid.getLsbD n = true

theorem KeepsValidBit.refl (n : Nat) (a : Engine) : KeepsValidBit n a a := id

theorem KeepsValidBit.trans {n : Nat} {a b c : Engine} (h1 : KeepsValidBit n a b) (h2 : KeepsValidBit n b c) :
    KeepsValidBit n a c :=
  h2 ∘ h1

theorem KeepsValidBit.writeReg (n : Nat) (e : Engine) (v : Word) (r : Reg) : KeepsValidBit n e (writeReg e v r) :=
  writeReg_valid_mono e v r

/-- A regeneration of the cache sets VALID bits and clears none (R142). -/
theorem setEcV_mono {v : Word} {n : Nat} (h : v.getLsbD n = true) : (setEcV v).getLsbD n = true := by
  rw [setEcV, BitVec.getLsbD_or, h, Bool.true_or]

/-- Of the commands only CTR_APPLY writes VALID, and its regenerations only set bits. -/
theorem KeepsValidBit.operation (n : Nat) {i : Instr} {e : Engine} (m : Memory) (hc : check i e = .ok) :
    KeepsValidBit n e (setErr (operation i e m).1 .ok) := by
  cases i with
  | igeEnc | igeDec => exact id
  | ctrApply =>
    rw [setErr_operation_ctrApply m hc, KeepsValidBit]
    obtain ⟨-, hv⟩ | hv := ctrFinal_valid_cases e
    · rw [hv]; exact id
    · rw [hv]; exact setEcV_mono

theorem KeepsValidBit.kept (n : Nat) (s0 : State) : Kept (EachRelated (fun _ => KeepsValidBit n) s0) :=
  EachRelated.kept (R := fun _ => KeepsValidBit n) (fun _ _ _ _ => KeepsValidBit.trans) s0
    (fun _ e _ => KeepsValidBit.refl n e) fun _ _ _ m hc => KeepsValidBit.operation n m hc

/-- Settles O15: errors, commands and register writes clear no bit of VALID, and no other action but reset touches
an engine. -/
theorem onlyResetClearsValidBits : Obligations.OnlyResetClearsValidBits := by
  intro s t k n e f hreset ht he hf
  have hw : ∀ a ∈ s.pending.head?, KeepsWrite (EachRelated (fun _ => KeepsValidBit n) s) a :=
    fun _ _ _ _ _ v a r _ ha _ _ h =>
      EachRelated.setEngine (R := fun _ => KeepsValidBit n) (fun _ _ _ _ => KeepsValidBit.trans) ha
        (KeepsValidBit.writeReg n a v r) h
  exact (KeepsValidBit.kept n s).step (fun _ h => h) hw (fun h => absurd h hreset) ht
    (EachRelated.refl (fun _ => KeepsValidBit.refl n) s) k e f he hf

/-! ### Reset inside a command -/

theorem overlapped_of_reset_mem {cs : List (Nat × Word)} {os : List AgentEvent} (s : State)
    (h : AgentEvent.reset ∈ os) : overlapped cs os s = .refused .resetDuringCommand := by
  have hr : (os.any fun o => decide (o = .reset)) = true := List.any_eq_true.2 ⟨_, h, decide_eq_true rfl⟩
  rw [overlapped, if_pos hr]

/-- Settles O50: a reset among the events beside commands is refused before any other effect. -/
theorem resetInsideACommandIsRefused : Obligations.ResetInsideACommandIsRefused := by
  intro s cs os rest hp h
  rw [step_cons hp, perform, overlapped_of_reset_mem _ h]

end Sys2Proof.Machine
end
